-- ==== Sys2Proof/Word.lean ====
section
/-! DEFINITION. The word types of CORE (00_scope.md R7, R12, R13). Bit 0 of every word is its least significant bit
(R12). A `u64` and an `i64` are two readings of the same 64 wires (40_bitfield_extract.md R103 (3)): the unsigned reading is
`BitVec.toNat`, the two's-complement reading `signed(x)` is `BitVec.toInt`, and `bits(v)` is `BitVec.ofInt 64 v`. -/

namespace Sys2Proof

/-- The BitField word and the `value` operand: 64 bits (R7). -/
abbrev Word := BitVec 64

/-- The codeword: 32 bits (R7). -/
abbrev Codeword := BitVec 32

/-- A byte: one lane of the stream image, or the opcode (R13). -/
abbrev Byte := BitVec 8

end Sys2Proof
end

