-- ==== Sys2Proof/Config.lean ====
section
/-! DEFINITION. The parameters of CORE: `Params = (NUM, CHROMA, K_B_PR)` (00_scope.md R8, R9, R10; 10_state.md R30). They are
fixed for the life of an instance (70_reset_and_hazards.md R262) and are no part of the state (10_state.md R28).

`NUM` is a record over a carrier type `R` of its own (R8): every real-valued operation, and the step and the run of the spec
(Machine/Transaction.lean), are written for every carrier and every `NUM` over it. The machine of the host's interface runs at
one of them, the reference instantiation `NUM_EXACT` (`Num.exact`) over the rationals, under which every rule of the spec is
stated (DESIGN CHOICE, notes/assumptions/3.md). `CHROMA` has no body: nothing may be assumed of it (R9). -/

namespace Sys2Proof

/-- `NUM`, the numerics of the real-valued operations (R8), over the carrier `R`: the arithmetic, a total order, and the
constants of 43_color.md R171, R173 and 44_block.md R186 to R190 as elements of the carrier. No law is assumed of the arithmetic:
each result is a function of its operands alone. -/
structure Num (R : Type) where
  add      : R → R → R
  sub      : R → R → R
  mul      : R → R → R
  divNat   : R → ℕ+ → R
  ofInt    : Int → R
  floorInt : R → Int
  /-- the total order on `R` -/
  le         : R → R → Bool
  refl       : ∀ x, le x x = true
  antisymm   : ∀ x y, le x y = true → le y x = true → x = y
  trans      : ∀ x y z, le x y = true → le y z = true → le x z = true
  total      : ∀ x y, le x y = true ∨ le y x = true
  /-- R171, the row of `y` -/
  kYR  : R
  kYG  : R
  kYB  : R
  /-- R171, the row of `pb`: the coefficient of `r` carries its sign, that of `g` is subtracted -/
  kPbR : R
  kPbG : R
  kPbB : R
  /-- R171, the row of `pr`: the coefficients of `g` and `b` are subtracted -/
  kPrR : R
  kPrG : R
  kPrB : R
  /-- R173: `r` from `pr`, `g` from `pb` and `pr` (subtracted), `b` from `pb` -/
  kRPr : R
  kGPb : R
  kGPr : R
  kBPb : R
  /-- R186 to R190 -/
  zero  : R
  one   : R
  half  : R
  aScale  : R
  acMin   : R
  acMax   : R
  acScale : R

/-- The strict part of the order. -/
def Num.lt {R : Type} (n : Num R) (x y : R) : Bool := !n.le y x

/-- `NUM_EXACT` (R8): exact rational arithmetic, every constant the exact decimal the source prints (R17). -/
def Num.exact : Num Rat where
  add x y := x + y
  sub x y := x - y
  mul x y := x * y
  divNat x n := x / ((n : Nat) : Rat)
  ofInt i := (i : Rat)
  floorInt x := Rat.floor x
  le x y := decide (x ≤ y)
  refl x := decide_eq_true (le_refl x)
  antisymm _ _ h k := le_antisymm (of_decide_eq_true h) (of_decide_eq_true k)
  trans _ _ _ h k := decide_eq_true (le_trans (of_decide_eq_true h) (of_decide_eq_true k))
  total x y := (le_total x y).imp decide_eq_true decide_eq_true
  kYR := 299 / 1000
  kYG := 587 / 1000
  kYB := 114 / 1000
  kPbR := -168736 / 1000000
  kPbG := 331264 / 1000000
  kPbB := 5 / 10
  kPrR := 5 / 10
  kPrG := 418688 / 1000000
  kPrB := 81312 / 1000000
  kRPr := 1402 / 1000
  kGPb := 344136 / 1000000
  kGPr := 714136 / 1000000
  kBPb := 1772 / 1000
  zero := 0
  one := 1
  half := 1 / 2
  aScale := 511
  acMin := -3 / 10
  acMax := 3 / 10
  acScale := 50

/-- `Params = (NUM, CHROMA, K_B_PR)` (10_state.md R30). `CHROMA` is the pair of total functions of R9; `kBPr` is the
coefficient of `pr` in the blue row of the inverse colour matrix (R10). -/
structure Params (R : Type) where
  num           : Num R
  indexOfChroma : R → Word
  chromaOfIndex : Word → R
  kBPr          : R

namespace Config

/-- The external chroma lookup, sample to index (R9). FREE: no value of it can be proved (notes/assumptions/4.md). -/
opaque indexOfChroma : Rat → Word

/-- The external chroma lookup, index to sample (R9). FREE: no value of it can be proved (notes/assumptions/4.md). -/
opaque chromaOfIndex : Word → Rat

/-- `K_B_PR`, decided value 0 (R10; 90_conflicts.md C1). -/
def kBPr : Rat := 0

/-- The parameters of the instance the machine runs: `NUM_EXACT`, the free lookup, the decided coefficient. -/
def params : Params Rat where
  num := Num.exact
  indexOfChroma := indexOfChroma
  chromaOfIndex := chromaOfIndex
  kBPr := kBPr

end Config

end Sys2Proof
end

