-- ==== Sys2Proof/Syntax.lean ====
section
/-! DEFINITION. The data of the command and response ports, and the instructions: one constructor of `Instr` per row of
spec/opcode_table.json, in the table's order, each with the operand ports of its format (30_encoding.md R60, R61, R62). Here an
"instruction" is one operation of the block with its operands (00_scope.md R3). -/

namespace Sys2Proof

/-- The stream image of a codeword: exactly four bytes, `b0` first in the stream (20_memory.md R40). -/
structure StreamBytes where
  b0 : Byte
  b1 : Byte
  b2 : Byte
  b3 : Byte
  deriving DecidableEq, Repr

/-- The coefficient record (42_codeword.md R140): `a`, `pbAvg`, `prAvg` are `u64`; `b`, `c`, `d` are `i64`, held as their 64
two's-complement bits (30_encoding.md R60, R63). -/
structure Record where
  a : Word
  b : Word
  c : Word
  d : Word
  pbAvg : Word
  prAvg : Word
  deriving DecidableEq, Repr

/-- One colour sample `(s.0, s.1, s.2)` over the carrier `R` of `NUM`: `(r, g, b)` or `(y, pb, pr)` (43_color.md R170). -/
structure Triple (R : Type) where
  x0 : R
  x1 : R
  x2 : R
  deriving DecidableEq, Repr

/-- A block: four samples in raster order top-left, top-right, bottom-left, bottom-right (44_block.md R185). -/
structure Block (R : Type) where
  s1 : Triple R
  s2 : Triple R
  s3 : Triple R
  s4 : Triple R
  deriving DecidableEq, Repr

/-- The 16 operations with their operands. `width`, `lsb` and `nbytes` are natural numbers (00_scope.md R13: `N8` is a natural
number): they are only compared and added without wrap (30_encoding.md R63). That they fit their ports is `Instr.wf`. Samples
and blocks are over the rationals, the carrier of the `NUM` the machine runs at (notes/assumptions/3.md). -/
inductive Instr where
  | fitsu (value : Word) (width : Nat)
  | fitss (value : Word) (width : Nat)
  | getu (word : Word) (width lsb : Nat)
  | gets (word : Word) (width lsb : Nat)
  | setu (word : Word) (width lsb : Nat) (value : Word)
  | sets (word : Word) (width lsb : Nat) (value : Word)
  | pack (record : Record)
  | unpack (cw : Codeword)
  | ser (cw : Codeword)
  | deser (bytes : StreamBytes) (nbytes : Nat)
  | rgb2ycc (sample : Triple Rat)
  | ycc2rgb (sample : Triple Rat)
  | bfwd (block : Block Rat)
  | binv (record : Record)
  | cblk (block : Block Rat)
  | dblk (bytes : StreamBytes) (nbytes : Nat)
  deriving DecidableEq, Repr

/-- The names of the 16 operations (30_encoding.md R62). -/
inductive Opcode where
  | fitsu | fitss | getu | gets | setu | sets
  | pack | unpack | ser | deser
  | rgb2ycc | ycc2rgb
  | bfwd | binv
  | cblk | dblk
  deriving DecidableEq, Repr

/-- The eight formats of 30_encoding.md R61. -/
inductive Format where
  | F | X | I | R | W | B | S | K
  deriving DecidableEq, Repr

/-- The operand ports beside `op` (30_encoding.md R60). -/
inductive OperandPort where
  | word | width | lsb | value | record | cw | bytes | nbytes | sample | block
  deriving DecidableEq, Repr

/-- The result ports beside `status` (30_encoding.md R65). -/
inductive ResultPort where
  | flag | word | cw | record | bytes | sample | block
  deriving DecidableEq, Repr

/-- A command as it stands on the command port: the opcode and the full set of operand ports (30_encoding.md R60, R68). A real
on the `sample` and `block` ports stands as its value: its bit encoding belongs to `NUM` (R60). -/
structure Command (R : Type) where
  op     : Byte
  word   : Word
  width  : BitVec 8
  lsb    : BitVec 8
  value  : Word
  record : Record
  cw     : Codeword
  bytes  : StreamBytes
  nbytes : BitVec 3
  sample : Triple R
  block  : Block R
  deriving DecidableEq, Repr

/-- What the host can do: present a command, or assert `rst` (10_state.md R31). -/
inductive Event (R : Type) where
  | cmd (c : Command R)
  | reset
  deriving DecidableEq, Repr

end Sys2Proof
end

