-- ==== Sys2Proof/WellFormed.lean ====
section
/-! DEFINITION. Which instructions can stand on the command port: the operands held as natural numbers fit the widths of their
ports (30_encoding.md R60: `width` and `lsb` 8 bits, `nbytes` 3 bits). Every other operand fits by its type. A legal field
descriptor is no matter of well-formedness: an illegal one can be presented, and is answered FATAL (R11, R94). -/

namespace Sys2Proof

/-- `width` and `lsb` lie in 0..255 (00_scope.md R13, `N8`). -/
def fitsN8 (n : Nat) : Bool := n < 256

/-- `nbytes` lies in 0..7 (30_encoding.md R60). -/
def fitsN3 (n : Nat) : Bool := n < 8

/-- The instruction's operands fit their ports. -/
def Instr.wf : Instr → Bool
  | .fitsu _ width => fitsN8 width
  | .fitss _ width => fitsN8 width
  | .getu _ width lsb => fitsN8 width && fitsN8 lsb
  | .gets _ width lsb => fitsN8 width && fitsN8 lsb
  | .setu _ width lsb _ => fitsN8 width && fitsN8 lsb
  | .sets _ width lsb _ => fitsN8 width && fitsN8 lsb
  | .pack _ => true
  | .unpack _ => true
  | .ser _ => true
  | .deser _ nbytes => fitsN3 nbytes
  | .rgb2ycc _ => true
  | .ycc2rgb _ => true
  | .bfwd _ => true
  | .binv _ => true
  | .cblk _ => true
  | .dblk _ nbytes => fitsN3 nbytes

end Sys2Proof
end

