-- ==== Sys2Proof/Decode.lean ====
section
/-! DEFINITION. The opcode map (30_encoding.md R62), the decoder from a command to an instruction (R61, R63, R64), the encoder
from an instruction to a command, the host's `decodeTableWord`, and the textual command form of R69 over tokenised operands.

Every command has one shape and one length (R68), so "decoding" is selecting the ports of the operation's format. The integer
ports of a command have the widths of R60; the reals of the `sample` and `block` ports have no bits of their own here. -/

namespace Sys2Proof

/-! ## The opcode map -/

/-- One row of R62. -/
structure OpcodeRow where
  bits : Byte
  mnemonic : String
  format : Format
  sourceFunction : String
  deriving DecidableEq, Repr

/-- The table of R62, a row for each operation. -/
def Opcode.row : Opcode → OpcodeRow
  | .fitsu   => ⟨0x00, "FITSU", .F, "fits_unsigned"⟩
  | .fitss   => ⟨0x01, "FITSS", .F, "fits_signed"⟩
  | .getu    => ⟨0x02, "GETU", .X, "get_unsigned"⟩
  | .gets    => ⟨0x03, "GETS", .X, "get_signed"⟩
  | .setu    => ⟨0x04, "SETU", .I, "set_unsigned"⟩
  | .sets    => ⟨0x05, "SETS", .I, "set_signed"⟩
  | .pack    => ⟨0x10, "PACK", .R, "pack"⟩
  | .unpack  => ⟨0x11, "UNPACK", .W, "unpack"⟩
  | .ser     => ⟨0x12, "SER", .W, "serialize"⟩
  | .deser   => ⟨0x13, "DESER", .B, "deserialize"⟩
  | .rgb2ycc => ⟨0x20, "RGB2YCC", .S, "rgb_to_ycc"⟩
  | .ycc2rgb => ⟨0x21, "YCC2RGB", .S, "ycc_to_rgb"⟩
  | .bfwd    => ⟨0x30, "BFWD", .K, "BlockTransform forward"⟩
  | .binv    => ⟨0x31, "BINV", .R, "BlockTransform inverse"⟩
  | .cblk    => ⟨0x40, "CBLK", .K, "compression data flow"⟩
  | .dblk    => ⟨0x41, "DBLK", .B, "decompression data flow"⟩

/-- All 16 operations, in the table's order. -/
def Opcode.all : List Opcode :=
  [.fitsu, .fitss, .getu, .gets, .setu, .sets, .pack, .unpack, .ser, .deser, .rgb2ycc, .ycc2rgb, .bfwd, .binv, .cblk, .dblk]

/-- The operation whose opcode is `op`; the whole of `op` is compared (R62), and every other value is reserved (R64). -/
def Opcode.ofBits? (op : Byte) : Option Opcode :=
  Opcode.all.find? fun o => o.row.bits == op

/-- The operand ports a format reads (R61). -/
def Format.reads : Format → List OperandPort
  | .F => [.value, .width]
  | .X => [.word, .width, .lsb]
  | .I => [.word, .width, .lsb, .value]
  | .R => [.record]
  | .W => [.cw]
  | .B => [.bytes, .nbytes]
  | .S => [.sample]
  | .K => [.block]

/-- The result port an operation drives on OK (R61). -/
def Opcode.drives : Opcode → ResultPort
  | .fitsu => .flag
  | .fitss => .flag
  | .getu => .word
  | .gets => .word
  | .setu => .word
  | .sets => .word
  | .pack => .cw
  | .unpack => .record
  | .ser => .bytes
  | .deser => .cw
  | .rgb2ycc => .sample
  | .ycc2rgb => .sample
  | .bfwd => .record
  | .binv => .block
  | .cblk => .bytes
  | .dblk => .block

/-- The operation of an instruction. -/
def Instr.opcode : Instr → Opcode
  | .fitsu _ _ => .fitsu
  | .fitss _ _ => .fitss
  | .getu _ _ _ => .getu
  | .gets _ _ _ => .gets
  | .setu _ _ _ _ => .setu
  | .sets _ _ _ _ => .sets
  | .pack _ => .pack
  | .unpack _ => .unpack
  | .ser _ => .ser
  | .deser _ _ => .deser
  | .rgb2ycc _ => .rgb2ycc
  | .ycc2rgb _ => .ycc2rgb
  | .bfwd _ => .bfwd
  | .binv _ => .binv
  | .cblk _ => .cblk
  | .dblk _ _ => .dblk

/-! ## Decoding -/

/-- Why a command decodes to no instruction. -/
inductive DecodeError where
  /-- The opcode is none of the 16 of R62 (R64). The step answers it with ContractViolation. -/
  | reservedOpcode (op : Byte)
  deriving DecidableEq, Repr

/-- The instruction of an operation, its operands read whole from the ports of its format; every other port is ignored (R61, R63). -/
def Opcode.instr (o : Opcode) (c : Command Rat) : Instr :=
  match o with
  | .fitsu => .fitsu c.value c.width.toNat
  | .fitss => .fitss c.value c.width.toNat
  | .getu => .getu c.word c.width.toNat c.lsb.toNat
  | .gets => .gets c.word c.width.toNat c.lsb.toNat
  | .setu => .setu c.word c.width.toNat c.lsb.toNat c.value
  | .sets => .sets c.word c.width.toNat c.lsb.toNat c.value
  | .pack => .pack c.record
  | .unpack => .unpack c.cw
  | .ser => .ser c.cw
  | .deser => .deser c.bytes c.nbytes.toNat
  | .rgb2ycc => .rgb2ycc c.sample
  | .ycc2rgb => .ycc2rgb c.sample
  | .bfwd => .bfwd c.block
  | .binv => .binv c.record
  | .cblk => .cblk c.block
  | .dblk => .dblk c.bytes c.nbytes.toNat

/-- The decoder, total on every command (R62, R64). -/
def decode (c : Command Rat) : Except DecodeError Instr :=
  match Opcode.ofBits? c.op with
  | some o => .ok (o.instr c)
  | none => .error (.reservedOpcode c.op)

/-! ## Encoding -/

/-- A sample, a block, a record and a stream image of zeros. -/
def Triple.zero : Triple Rat := ⟨0, 0, 0⟩
def Block.zero : Block Rat := ⟨.zero, .zero, .zero, .zero⟩
def Record.zero : Record := ⟨0, 0, 0, 0, 0, 0⟩
def StreamBytes.zero : StreamBytes := ⟨0, 0, 0, 0⟩

/-- The command with opcode `op` and zero on every operand port. -/
def Command.ofOpcode (op : Byte) : Command Rat where
  op := op
  word := 0
  width := 0
  lsb := 0
  value := 0
  record := .zero
  cw := 0
  bytes := .zero
  nbytes := 0
  sample := .zero
  block := .zero

/-- The command of an instruction over a base command `c`: the opcode and the ports of the format are the instruction's, the
ports outside the format keep whatever `c` holds (R61: any value, no effect). -/
def encodeOver (c : Command Rat) (i : Instr) : Command Rat :=
  match i with
  | .fitsu v w => { c with op := 0x00, value := v, width := BitVec.ofNat 8 w }
  | .fitss v w => { c with op := 0x01, value := v, width := BitVec.ofNat 8 w }
  | .getu x w l => { c with op := 0x02, word := x, width := BitVec.ofNat 8 w, lsb := BitVec.ofNat 8 l }
  | .gets x w l => { c with op := 0x03, word := x, width := BitVec.ofNat 8 w, lsb := BitVec.ofNat 8 l }
  | .setu x w l v => { c with op := 0x04, word := x, width := BitVec.ofNat 8 w, lsb := BitVec.ofNat 8 l, value := v }
  | .sets x w l v => { c with op := 0x05, word := x, width := BitVec.ofNat 8 w, lsb := BitVec.ofNat 8 l, value := v }
  | .pack r => { c with op := 0x10, record := r }
  | .unpack cw => { c with op := 0x11, cw := cw }
  | .ser cw => { c with op := 0x12, cw := cw }
  | .deser b n => { c with op := 0x13, bytes := b, nbytes := BitVec.ofNat 3 n }
  | .rgb2ycc s => { c with op := 0x20, sample := s }
  | .ycc2rgb s => { c with op := 0x21, sample := s }
  | .bfwd b => { c with op := 0x30, block := b }
  | .binv r => { c with op := 0x31, record := r }
  | .cblk b => { c with op := 0x40, block := b }
  | .dblk b n => { c with op := 0x41, bytes := b, nbytes := BitVec.ofNat 3 n }

/-- The command of an instruction, zero on the ports outside its format. -/
def encode (i : Instr) : Command Rat := encodeOver (Command.ofOpcode 0) i

/-- The host's word for a table row: the table gives a row its 8 opcode bits, and the operand ports have no bits in the table, so
they are all zero. A word too short to hold the opcode, or with a bit above the opcode, is refused. -/
def decodeTableWord (nbits w : Nat) : Option Instr :=
  if nbits < 8 then none
  else if 256 ≤ w % 2 ^ nbits then none
  else (decode (Command.ofOpcode (BitVec.ofNat 8 (w % 2 ^ nbits)))).toOption

/-! ## The textual form of a command (R69)

The text is taken as tokenised: a name, then operands in the order of R69, an integer token standing as its value. The name is
the mnemonic, or the source's function name, "an accepted alias" (R69). -/

/-- One operand of R69: an integer, a record in braces, a list of bytes in brackets, a sample, a block. -/
inductive Operand where
  | int (v : Int)
  | record (a b c d pbAvg prAvg : Int)
  | bytes (lanes : List Int)
  | sample (s : Triple Rat)
  | block (b : Block Rat)
  deriving DecidableEq, Repr

/-- An unsigned operand of `n` bits: no leading minus is allowed, and it must fit its port. -/
def unsigned? (n : Nat) (v : Int) : Option (BitVec n) :=
  if 0 ≤ v ∧ v < 2 ^ n then some (BitVec.ofInt n v) else none

/-- A signed 64-bit operand: a leading minus is allowed, and the 64 port bits may be written as a hexadecimal number
(DEDUCED, notes/assumptions/9.md). -/
def signed64? (v : Int) : Option Word :=
  if -2 ^ 63 ≤ v ∧ v < 2 ^ 64 then some (BitVec.ofInt 64 v) else none

/-- A count or an offset below `bound`. -/
def natBelow? (bound : Nat) (v : Int) : Option Nat :=
  if 0 ≤ v ∧ v < bound then some v.toNat else none

/-- The byte lanes: the first `nbytes` of them (at most four) must be written; a lane that is not written is ignored by CORE
(42_codeword.md R145) and stands as zero. -/
def lanes? (ls : List Int) (nbytes : Nat) : Option StreamBytes :=
  if min nbytes 4 ≤ ls.length ∧ ls.length ≤ 4 then do
    let b0 ← unsigned? 8 (ls.getD 0 0)
    let b1 ← unsigned? 8 (ls.getD 1 0)
    let b2 ← unsigned? 8 (ls.getD 2 0)
    let b3 ← unsigned? 8 (ls.getD 3 0)
    pure ⟨b0, b1, b2, b3⟩
  else none

/-- A record operand: `a`, `pb_avg`, `pr_avg` unsigned, `b`, `c`, `d` signed (R63, R69). -/
def record? (a b c d pbAvg prAvg : Int) : Option Record := do
  let a ← unsigned? 64 a
  let b ← signed64? b
  let c ← signed64? c
  let d ← signed64? d
  let pbAvg ← unsigned? 64 pbAvg
  let prAvg ← unsigned? 64 prAvg
  pure ⟨a, b, c, d, pbAvg, prAvg⟩

/-- The instruction of an operation from its operands in the order of R69. -/
def Opcode.assemble (o : Opcode) (operands : List Operand) : Option Instr :=
  match o, operands with
  | .fitsu, [.int v, .int w] => do pure (.fitsu (← unsigned? 64 v) (← natBelow? 256 w))
  | .fitss, [.int v, .int w] => do pure (.fitss (← signed64? v) (← natBelow? 256 w))
  | .getu, [.int x, .int w, .int l] => do pure (.getu (← unsigned? 64 x) (← natBelow? 256 w) (← natBelow? 256 l))
  | .gets, [.int x, .int w, .int l] => do pure (.gets (← unsigned? 64 x) (← natBelow? 256 w) (← natBelow? 256 l))
  | .setu, [.int x, .int w, .int l, .int v] => do
      pure (.setu (← unsigned? 64 x) (← natBelow? 256 w) (← natBelow? 256 l) (← unsigned? 64 v))
  | .sets, [.int x, .int w, .int l, .int v] => do
      pure (.sets (← unsigned? 64 x) (← natBelow? 256 w) (← natBelow? 256 l) (← signed64? v))
  | .pack, [.record a b c d p q] => do pure (.pack (← record? a b c d p q))
  | .unpack, [.int cw] => do pure (.unpack (← unsigned? 32 cw))
  | .ser, [.int cw] => do pure (.ser (← unsigned? 32 cw))
  | .deser, [.bytes ls, .int n] => do
      let n ← natBelow? 8 n
      pure (.deser (← lanes? ls n) n)
  | .rgb2ycc, [.sample s] => some (.rgb2ycc s)
  | .ycc2rgb, [.sample s] => some (.ycc2rgb s)
  | .bfwd, [.block b] => some (.bfwd b)
  | .binv, [.record a b c d p q] => do pure (.binv (← record? a b c d p q))
  | .cblk, [.block b] => some (.cblk b)
  | .dblk, [.bytes ls, .int n] => do
      let n ← natBelow? 8 n
      pure (.dblk (← lanes? ls n) n)
  | _, _ => none

/-- The operation of a name: a mnemonic, or the source's function name as its alias (R69). -/
def Opcode.ofName? (name : String) : Option Opcode :=
  Opcode.all.find? fun o => o.row.mnemonic == name || o.row.sourceFunction == name

/-- A line of R69, `MNEMONIC operand, operand, ...`, as an instruction. -/
def assemble (name : String) (operands : List Operand) : Option Instr :=
  (Opcode.ofName? name).bind fun o => o.assemble operands

/-- A record and a stream image as operands. -/
def Record.operand (r : Record) : Operand :=
  .record r.a.toNat r.b.toInt r.c.toInt r.d.toInt r.pbAvg.toNat r.prAvg.toNat
def StreamBytes.operand (b : StreamBytes) : Operand :=
  .bytes [b.b0.toNat, b.b1.toNat, b.b2.toNat, b.b3.toNat]

/-- The operands of an instruction in the order of R69 (F: `value, width`; X: `word, width, lsb`; I: `word, width, lsb, value`). -/
def Instr.operands : Instr → List Operand
  | .fitsu v w => [.int v.toNat, .int w]
  | .fitss v w => [.int v.toInt, .int w]
  | .getu x w l => [.int x.toNat, .int w, .int l]
  | .gets x w l => [.int x.toNat, .int w, .int l]
  | .setu x w l v => [.int x.toNat, .int w, .int l, .int v.toNat]
  | .sets x w l v => [.int x.toNat, .int w, .int l, .int v.toInt]
  | .pack r => [r.operand]
  | .unpack cw => [.int cw.toNat]
  | .ser cw => [.int cw.toNat]
  | .deser b n => [b.operand, .int n]
  | .rgb2ycc s => [.sample s]
  | .ycc2rgb s => [.sample s]
  | .bfwd b => [.block b]
  | .binv r => [r.operand]
  | .cblk b => [.block b]
  | .dblk b n => [b.operand, .int n]

/-- The mnemonic of an instruction (R62). -/
def Instr.mnemonic (i : Instr) : String := i.opcode.row.mnemonic

/-! The written form itself: integers in decimal, reals as integers or fractions `p/q` (R69). -/

/-- Texts joined by a comma and a space. -/
def commaText (ts : List String) : String := ", ".intercalate ts

/-- A text in braces, the braces given by their character codes. -/
def braceText (t : String) : String :=
  String.singleton (Char.ofNat 123) ++ t ++ String.singleton (Char.ofNat 125)

/-- A real as an integer or a fraction. -/
def ratText (x : Rat) : String :=
  if x.den = 1 then toString x.num else toString x.num ++ "/" ++ toString x.den

def Triple.text (s : Triple Rat) : String :=
  "(" ++ commaText [ratText s.x0, ratText s.x1, ratText s.x2] ++ ")"

def Block.text (b : Block Rat) : String :=
  "[" ++ commaText [b.s1.text, b.s2.text, b.s3.text, b.s4.text] ++ "]"

/-- One operand, as R69 writes it. -/
def Operand.text : Operand → String
  | .int v => toString v
  | .record a b c d p q => braceText (commaText ([a, b, c, d, p, q].map toString))
  | .bytes ls => "[" ++ commaText (ls.map toString) ++ "]"
  | .sample s => s.text
  | .block b => b.text

/-- A command as R69 writes it, `MNEMONIC operand, operand, ...`. -/
def Instr.text (i : Instr) : String :=
  i.mnemonic ++ " " ++ commaText (i.operands.map Operand.text)

end Sys2Proof
end

