-- ==== Sys2Proof/Machine/State.lean ====
section
/-! DEFINITION. What a response carries, the three exceptions, and the state.

The spec's own state is one bit: `ArchState` is "structure State where fatal : Bool" (10_state.md R30), and R28 says what is not
state. The host's interface wants a step that is a function of the state alone, so `State` is the spec's state together with
the two ports of a run as 10_state.md R31 describes it: the events the host has yet to present, and the responses
CORE has emitted (notes/assumptions/1.md). No operation reads either list; only the command port is fed from the first. -/

namespace Sys2Proof.Machine

/-- The three synchronous exceptions and no others (60_exceptions.md R230). -/
inductive Exn where
  | contractViolation
  | overflow
  | incompleteWord
  deriving DecidableEq, Repr

/-- The one result port an operation drives on OK, with its value (30_encoding.md R61, R65). GETS carries its i64 as its 64
two's-complement bits on `word`. -/
inductive Result (R : Type) where
  | flag (b : Bool)
  | word (w : Word)
  | cw (c : Codeword)
  | record (r : Record)
  | bytes (b : StreamBytes)
  | sample (s : Triple R)
  | block (b : Block R)
  deriving DecidableEq, Repr

/-- A response, one constructor per status (30_encoding.md R65, R66, R67). A result port that is not driven has no value here: the
spec leaves it unspecified and asks that no claim can read it (R67, U1). -/
inductive Response (R : Type) where
  | ok (r : Result R)
  | overflow
  | incomplete
  | fatal
  deriving DecidableEq, Repr

/-- The architectural state of CORE, in full (10_state.md R22, R24, R30): the sticky bit `STATUS.FATAL`. -/
structure ArchState where
  fatal : Bool
  deriving DecidableEq, Repr

/-- CORE with the two ports of a run (10_state.md R31): `events` is what the host has yet to present, first to come first;
`responses` is what CORE has emitted, oldest first. -/
structure State where
  arch : ArchState
  events : List (Event Rat)
  responses : List (Response Rat)
  deriving DecidableEq, Repr

/-- Nothing in CORE stops a step with a fault: each of its three exceptions is a response, after which CORE goes on
(60_exceptions.md R233 to R236), so this type has no constructor. -/
inductive Fault where
  deriving DecidableEq, Repr

/-- Why a step has no meaning. -/
inductive Refusal where
  /-- An instruction whose arm of `exec` has no meaning yet; raised by no arm of this model. Safe: the machine stops. -/
  | notModelled (mnemonic : String)
  deriving DecidableEq, Repr

/-- Right after reset: `FATAL = 0`, which is the whole reset state of CORE (10_state.md R29); no event is waiting and no response
has been emitted. -/
def State.reset : State where
  arch := { fatal := false }
  events := []
  responses := []

end Sys2Proof.Machine
end

