-- ==== Sys2Proof/Machine/Ops.lean ====
section
/-! DEFINITION. The operations every meaning is built from: the 64-bit shift primitives (40_bitfield_extract.md R90 to R93), taking
an exception (60_exceptions.md R233 to R235), reset, which is the only way back (R239, R260), completing a command under the
FATAL gate (R236), and the ports of a response (30_encoding.md R65, R66). -/

namespace Sys2Proof.Machine

/-! ## The shift primitives -/

/-- Left shift (R90): zeros enter at bit 0, bits that leave bit 63 are lost, a count of 64 gives 0. Counts above 64 are outside
the domain and unreachable; 0 there (R93, U3). -/
def shl64 (x : Word) (s : Nat) : Word :=
  if s < 64 then BitVec.ofNat 64 (x.toNat * 2 ^ s) else 0

/-- Logical right shift (R91): zeros enter at bit 63, a count of 64 gives 0. -/
def shr64u (x : Word) (s : Nat) : Word :=
  if s < 64 then BitVec.ofNat 64 (x.toNat / 2 ^ s) else 0

/-- Arithmetic right shift (R92): copies of bit 63 enter at bit 63; a count of 64 gives 0 for every `x`, negative ones
included (90_conflicts.md C7). -/
def shr64s (x : Word) (s : Nat) : Word :=
  if s < 64 then BitVec.ofInt 64 (x.toInt / 2 ^ s) else 0

/-! ## Responses, exceptions, reset -/

/-- Emit a response, in command order (20_memory.md R48). -/
def State.respond (s : State) (r : Response Rat) : State :=
  { s with responses := s.responses ++ [r] }

/-- The response that reports an exception: the status and nothing else (R230). -/
def Exn.response {R : Type} : Exn → Response R
  | .contractViolation => .fatal
  | .overflow => .overflow
  | .incompleteWord => .incomplete

/-- What an exception does to the architectural state: ContractViolation sets `FATAL` (R233), the other two change nothing
(R234, R235). -/
def Exn.effect (e : Exn) (a : ArchState) : ArchState :=
  match e with
  | .contractViolation => { fatal := true }
  | .overflow => a
  | .incompleteWord => a

/-- Taking an exception: nothing is saved and control goes nowhere, for CORE has no pc, no registers and no handler (R233). -/
def State.takeException (s : State) (e : Exn) : State :=
  { s with arch := e.effect s.arch }.respond e.response

/-- `rst` asserted (R260): `FATAL = 0` and nothing else; it emits nothing (10_state.md R31). There is no return from an
exception beside it (R239). -/
def State.resetCore (s : State) : State :=
  { s with arch := { fatal := false } }

/-- The end of a command whose pseudocode finished with a result or raised an exception, under the FATAL gate: while `FATAL = 1` every
command is answered FATAL and does nothing (R236). -/
def State.complete (s : State) (r : Except Exn (Result Rat)) : State :=
  if s.arch.fatal then s.respond .fatal
  else
    match r with
    | .ok p => s.respond (.ok p)
    | .error e => s.takeException e

/-- A meaning's answer: every command is answered, so there is always a next state (70_reset_and_hazards.md R272). -/
def complete (s : State) (r : Except Exn (Result Rat)) : Host.Outcome State Fault Refusal :=
  .next (s.complete r)

/-- The level output `fatal`, equal to `state.FATAL` at all times (10_state.md R22; 30_encoding.md R65). -/
def State.fatalOut (s : State) : Bool := s.arch.fatal

/-! ## The ports of a response -/

/-- The 2-bit `status` port (R66). -/
def Response.status {R : Type} : Response R → BitVec 2
  | .ok _ => 0
  | .overflow => 1
  | .incomplete => 2
  | .fatal => 3

/-- The name of the status (R66), as R69 writes it after the arrow. -/
def Response.statusName {R : Type} : Response R → String
  | .ok _ => "OK"
  | .overflow => "OVERFLOW"
  | .incomplete => "INCOMPLETE"
  | .fatal => "FATAL"

/-- The port a result stands on (R65). -/
def Result.port {R : Type} : Result R → ResultPort
  | .flag _ => .flag
  | .word _ => .word
  | .cw _ => .cw
  | .record _ => .record
  | .bytes _ => .bytes
  | .sample _ => .sample
  | .block _ => .block

/-- The result a response carries: none on any status other than OK (R67). -/
def Response.result? {R : Type} : Response R → Option (Result R)
  | .ok r => some r
  | .overflow => none
  | .incomplete => none
  | .fatal => none

/-- A result as R69 writes it after the status: the port, then its value. -/
def Result.text : Result Rat → String
  | .flag b => "flag=" ++ (if b then "1" else "0")
  | .word w => "word=" ++ toString w.toNat
  | .cw c => "cw=" ++ toString c.toNat
  | .record r => "rec=" ++ r.operand.text
  | .bytes b => "bytes=" ++ b.operand.text
  | .sample s => "s=" ++ s.text
  | .block b => "blk=" ++ b.text

/-- A response as R69 writes it: the arrow, the status, and on OK the result. -/
def Response.text (r : Response Rat) : String :=
  match r.result? with
  | some p => "=> " ++ r.statusName ++ " " ++ p.text
  | none => "=> " ++ r.statusName

end Sys2Proof.Machine
end

