-- ==== Sys2Proof/Machine/Operands.lean ====
section
/-! DEFINITION. What is done to operands before and around the operations: the two contract checks (40_bitfield_extract.md R94), the
widening of a codeword (00_scope.md R14), and the real primitives over `NUM` (00_scope.md R17; 44_block.md R186, R187). -/

namespace Sys2Proof.Machine

/-! ## The contract checks -/

/-- `check_width` (R94). -/
def checkWidth (width : Nat) : Except Exn Unit :=
  if width > 64 then .error .contractViolation else .ok ()

/-- `check_desc` (R94): the sum is taken over the natural numbers, with no wrap (20_memory.md R43). -/
def checkDesc (width lsb : Nat) : Except Exn Unit :=
  if width > 64 ∨ width + lsb > 64 then .error .contractViolation else .ok ()

/-! ## Integers -/

/-- `zext_64` of a codeword (R14; 42_codeword.md R144). -/
def zext64 (cw : Codeword) : Word := cw.setWidth 64

/-- `trunc_32` of a word (R14; 42_codeword.md R142). -/
def trunc32 (w : Word) : Codeword := w.setWidth 32

/-- `clamp` on the integers (44_block.md R190). -/
def clampInt (q lo hi : Int) : Int :=
  if q < lo then lo else if q > hi then hi else q

/-! ## Reals, over any `NUM` -/

variable {R : Type}

/-- `−x`, formed as zero minus `x`. DESIGN CHOICE (notes/assumptions/3.md): the record of R8 has no negation, and the spec writes
`−x` in `round_nearest`, `trunc_zero` and the butterfly without saying how it is formed; under `NUM_EXACT` it cannot be seen. -/
def neg (n : Num R) (x : R) : R := n.sub n.zero x

/-- `clamp(x, lo, hi)` (R17). -/
def clamp (n : Num R) (x lo hi : R) : R :=
  if n.lt x lo then lo else if n.lt hi x then hi else x

/-- `mean4` (R17); the sum is associated to the left (notes/assumptions/3.md). -/
def mean4 (n : Num R) (p q r s : R) : R :=
  n.divNat (n.add (n.add (n.add p q) r) s) 4

/-- `round_nearest` (44_block.md R186): to the nearest integer, ties away from zero. -/
def roundNearest (n : Num R) (x : R) : Int :=
  if n.lt x n.zero then -n.floorInt (n.add (neg n x) n.half) else n.floorInt (n.add x n.half)

/-- `trunc_zero` (44_block.md R187). -/
def truncZero (n : Num R) (x : R) : Int :=
  if n.lt x n.zero then -n.floorInt (neg n x) else n.floorInt x

end Sys2Proof.Machine
end

