-- ==== Sys2Proof/Machine/Block.lean ====
section
/-! DEFINITION. The block transform with its quantizers, and its inverse: BFWD, BINV (44_block.md). -/

namespace Sys2Proof.Machine

variable {R : Type}

/-! ## Quantizers -/

/-- `quant_a` (R188). -/
def quantA (n : Num R) (a : R) : Word :=
  BitVec.ofInt 64 (roundNearest n (n.mul (clamp n a n.zero n.one) n.aScale))

/-- `quant_ac` (R189). -/
def quantAc (n : Num R) (x : R) : Word :=
  BitVec.ofInt 64 (truncZero n (n.mul (clamp n x n.acMin n.acMax) n.acScale))

/-- `dequant_a` (R190): no clamp (90_conflicts.md C6). -/
def dequantA (n : Num R) (a : Word) : R := n.divNat (n.ofInt a.toNat) 511

/-- `dequant_ac` (R190): the clamp is on the integer. -/
def dequantAc (n : Num R) (q : Word) : R := n.divNat (n.ofInt (clampInt q.toInt (-15) 15)) 50

/-! ## Butterflies -/

/-- Four luma values, or the four coefficients `(a, b, c, d)`. -/
structure Quad (R : Type) where
  q1 : R
  q2 : R
  q3 : R
  q4 : R
  deriving DecidableEq, Repr

/-- The forward butterfly (R191). -/
def butterfly (n : Num R) (y : Quad R) : Quad R where
  q1 := n.divNat (n.add (n.add (n.add y.q1 y.q2) y.q3) y.q4) 4
  q2 := n.divNat (n.add (n.add (n.sub (neg n y.q1) y.q2) y.q3) y.q4) 4
  q3 := n.divNat (n.add (n.sub (n.add (neg n y.q1) y.q2) y.q3) y.q4) 4
  q4 := n.divNat (n.add (n.sub (n.sub y.q1 y.q2) y.q3) y.q4) 4

/-- The inverse butterfly (R194). -/
def inverseButterfly (n : Num R) (k : Quad R) : Quad R where
  q1 := n.add (n.sub (n.sub k.q1 k.q2) k.q3) k.q4
  q2 := n.sub (n.add (n.sub k.q1 k.q2) k.q3) k.q4
  q3 := n.sub (n.sub (n.add k.q1 k.q2) k.q3) k.q4
  q4 := n.add (n.add (n.add k.q1 k.q2) k.q3) k.q4

/-! ## The transforms -/

/-- The luma values of a block. -/
def luma (b : Block R) : Quad R := ⟨b.s1.x0, b.s2.x0, b.s3.x0, b.s4.x0⟩

/-- The chroma means of a block (R192). -/
def pbMean (n : Num R) (b : Block R) : R := mean4 n b.s1.x1 b.s2.x1 b.s3.x1 b.s4.x1
def prMean (n : Num R) (b : Block R) : R := mean4 n b.s1.x2 b.s2.x2 b.s3.x2 b.s4.x2

/-- BFWD's body (R193): total. -/
def bfwd (p : Params R) (b : Block R) : Record :=
  let k := butterfly p.num (luma b)
  { a := quantA p.num k.q1
    b := quantAc p.num k.q2
    c := quantAc p.num k.q3
    d := quantAc p.num k.q4
    pbAvg := p.indexOfChroma (pbMean p.num b)
    prAvg := p.indexOfChroma (prMean p.num b) }

/-- BINV's body (R195): total on every record; all four samples receive the one chroma pair. -/
def binv (p : Params R) (r : Record) : Block R :=
  let y := inverseButterfly p.num
    ⟨dequantA p.num r.a, dequantAc p.num r.b, dequantAc p.num r.c, dequantAc p.num r.d⟩
  let pb := p.chromaOfIndex r.pbAvg
  let pr := p.chromaOfIndex r.prAvg
  { s1 := ⟨y.q1, pb, pr⟩
    s2 := ⟨y.q2, pb, pr⟩
    s3 := ⟨y.q3, pb, pr⟩
    s4 := ⟨y.q4, pb, pr⟩ }

/-- BFWD (R193). -/
def opBfwd (p : Params R) (b : Block R) : Except Exn (Result R) := .ok (.record (bfwd p b))

/-- BINV (R195). -/
def opBinv (p : Params R) (r : Record) : Except Exn (Result R) := .ok (.block (binv p r))

def execBfwd (block : Block Rat) (s : State) : Host.Outcome State Fault Refusal :=
  complete s (opBfwd Config.params block)

def execBinv (r : Record) (s : State) : Host.Outcome State Fault Refusal :=
  complete s (opBinv Config.params r)

end Sys2Proof.Machine
end

