-- ==== Sys2Proof/Machine/Flags.lean ====
section
/-! DEFINITION. The flag computations: the Boolean result of the two range tests, driven on the response port `flag`
(40_bitfield_extract.md R95, R96). CORE keeps no flag between commands (10_state.md R23); `FATAL` is state, see Ops. -/

namespace Sys2Proof.Machine

/-- `fits_unsigned`: true iff `value < 2^width`, computed with the shift primitive as R95 writes it. -/
def fitsUnsigned (value : Word) (width : Nat) : Bool :=
  shr64u value width == 0

/-- `fits_signed`: true iff the two's-complement value lies in `−2^(width−1) .. 2^(width−1) − 1`; false at width 0 for every
value (R96; 92_eei_decisions.md D7). -/
def fitsSigned (value : Word) (width : Nat) : Bool :=
  if width = 0 then false
  else decide (-(2 : Int) ^ (width - 1) ≤ value.toInt ∧ value.toInt ≤ (2 : Int) ^ (width - 1) - 1)

end Sys2Proof.Machine
end

