-- ==== Sys2Proof/Machine/Extract.lean ====
section
/-! DEFINITION. The extract half of BitField: FITSU, FITSS, GETU, GETS (40_bitfield_extract.md). -/

namespace Sys2Proof.Machine

variable {R : Type}

/-- FITSU (R95). -/
def opFitsu (value : Word) (width : Nat) : Except Exn (Result R) := do
  checkWidth width
  pure (.flag (fitsUnsigned value width))

/-- FITSS (R96). -/
def opFitss (value : Word) (width : Nat) : Except Exn (Result R) := do
  checkWidth width
  pure (.flag (fitsSigned value width))

/-- `get_unsigned` (R98): discard the bits above the field, then bring its lowest bit to bit 0. -/
def getUnsigned (word : Word) (width lsb : Nat) : Except Exn Word := do
  checkDesc width lsb
  let t := shl64 word (64 - (width + lsb))
  pure (shr64u t (64 - width))

/-- `get_signed` (R100): extract as `get_unsigned`, left-align to bit 63, shift back arithmetically. -/
def getSigned (word : Word) (width lsb : Nat) : Except Exn Word := do
  checkDesc width lsb
  let u := shr64u (shl64 word (64 - (width + lsb))) (64 - width)
  let t := shl64 u (64 - width)
  pure (shr64s t (64 - width))

/-- GETU (R98). -/
def opGetu (word : Word) (width lsb : Nat) : Except Exn (Result R) :=
  (getUnsigned word width lsb).map .word

/-- GETS (R100). -/
def opGets (word : Word) (width lsb : Nat) : Except Exn (Result R) :=
  (getSigned word width lsb).map .word

def execFitsu (value : Word) (width : Nat) (s : State) : Host.Outcome State Fault Refusal :=
  complete s (opFitsu value width)

def execFitss (value : Word) (width : Nat) (s : State) : Host.Outcome State Fault Refusal :=
  complete s (opFitss value width)

def execGetu (word : Word) (width lsb : Nat) (s : State) : Host.Outcome State Fault Refusal :=
  complete s (opGetu word width lsb)

def execGets (word : Word) (width lsb : Nat) (s : State) : Host.Outcome State Fault Refusal :=
  complete s (opGets word width lsb)

end Sys2Proof.Machine
end

