-- ==== Sys2Proof/Machine/Insert.lean ====
section
/-! DEFINITION. The insert half of BitField: SETU, SETS (41_bitfield_insert.md). An insert returns a new word; the operand word is
not changed and CORE keeps no copy (R119). -/

namespace Sys2Proof.Machine

variable {R : Type}

/-- `set_unsigned` (R120): the descriptor first, then the range, then the update (R119). -/
def setUnsigned (word : Word) (width lsb : Nat) (value : Word) : Except Exn Word := do
  checkDesc width lsb
  if shr64u value width ≠ 0 then
    throw .overflow
  let ones := shr64u 0xFFFFFFFFFFFFFFFF (64 - width)
  let mask := shl64 ones lsb
  pure ((word &&& ~~~mask) ||| shl64 value lsb)

/-- `set_signed` (R122): reduce the value to its low `width` bits and delegate to `set_unsigned`. -/
def setSigned (word : Word) (width lsb : Nat) (value : Word) : Except Exn Word := do
  checkDesc width lsb
  if fitsSigned value width = false then
    throw .overflow
  let u := shr64u (shl64 value (64 - width)) (64 - width)
  setUnsigned word width lsb u

/-- SETU (R120). -/
def opSetu (word : Word) (width lsb : Nat) (value : Word) : Except Exn (Result R) :=
  (setUnsigned word width lsb value).map .word

/-- SETS (R122). -/
def opSets (word : Word) (width lsb : Nat) (value : Word) : Except Exn (Result R) :=
  (setSigned word width lsb value).map .word

def execSetu (word : Word) (width lsb : Nat) (value : Word) (s : State) : Host.Outcome State Fault Refusal :=
  complete s (opSetu word width lsb value)

def execSets (word : Word) (width lsb : Nat) (value : Word) (s : State) : Host.Outcome State Fault Refusal :=
  complete s (opSets word width lsb value)

end Sys2Proof.Machine
end

