-- ==== Sys2Proof/Machine/Codeword.lean ====
section
/-! DEFINITION. The codeword encoder and decoder: PACK, UNPACK, SER, DESER (42_codeword.md). The layout of R141: `a` 6 bits at 26,
`b`, `c`, `d` 6 bits signed at 20, 14, 8, `pb_avg` and `pr_avg` 4 bits at 4 and 0. -/

namespace Sys2Proof.Machine

variable {R : Type}

/-- `pack` (R142): the six inserts from word 0; the first one that overflows ends it. -/
def pack (r : Record) : Except Exn Codeword := do
  let w1 ← setUnsigned 0 6 26 r.a
  let w2 ← setSigned w1 6 20 r.b
  let w3 ← setSigned w2 6 14 r.c
  let w4 ← setSigned w3 6 8 r.d
  let w5 ← setUnsigned w4 4 4 r.pbAvg
  let w6 ← setUnsigned w5 4 0 r.prAvg
  pure (trunc32 w6)

/-- `unpack` (R144): the six extracts from the zero-extended codeword. -/
def unpack (cw : Codeword) : Except Exn Record := do
  let w := zext64 cw
  let a ← getUnsigned w 6 26
  let b ← getSigned w 6 20
  let c ← getSigned w 6 14
  let d ← getSigned w 6 8
  let pbAvg ← getUnsigned w 4 4
  let prAvg ← getUnsigned w 4 0
  pure ⟨a, b, c, d, pbAvg, prAvg⟩

/-- `serialize` (R143): most significant byte first (20_memory.md R41). -/
def serialize (cw : Codeword) : StreamBytes :=
  ⟨cw.extractLsb' 24 8, cw.extractLsb' 16 8, cw.extractLsb' 8 8, cw.extractLsb' 0 8⟩

/-- `deserialize` (R145): fewer than four bytes supplied is IncompleteWord; 4 to 7 all mean complete. -/
def deserialize (bytes : StreamBytes) (nbytes : Nat) : Except Exn Codeword :=
  if nbytes < 4 then .error .incompleteWord
  else .ok (bytes.b0 ++ bytes.b1 ++ bytes.b2 ++ bytes.b3)

/-- PACK (R142). -/
def opPack (r : Record) : Except Exn (Result R) := (pack r).map .cw

/-- UNPACK (R144). -/
def opUnpack (cw : Codeword) : Except Exn (Result R) := (unpack cw).map .record

/-- SER (R143). -/
def opSer (cw : Codeword) : Except Exn (Result R) := .ok (.bytes (serialize cw))

/-- DESER (R145). -/
def opDeser (bytes : StreamBytes) (nbytes : Nat) : Except Exn (Result R) :=
  (deserialize bytes nbytes).map .cw

def execPack (r : Record) (s : State) : Host.Outcome State Fault Refusal :=
  complete s (opPack r)

def execUnpack (cw : Codeword) (s : State) : Host.Outcome State Fault Refusal :=
  complete s (opUnpack cw)

def execSer (cw : Codeword) (s : State) : Host.Outcome State Fault Refusal :=
  complete s (opSer cw)

def execDeser (bytes : StreamBytes) (nbytes : Nat) (s : State) : Host.Outcome State Fault Refusal :=
  complete s (opDeser bytes nbytes)

end Sys2Proof.Machine
end

