-- ==== Sys2Proof/Machine/Color.lean ====
section
/-! DEFINITION. The colour matrices: RGB2YCC, YCC2RGB (43_color.md). Both are total on every triple; neither clamps (R170, R171,
R173). Sums are associated to the left, as written (notes/assumptions/3.md). -/

namespace Sys2Proof.Machine

variable {R : Type}

/-- `rgb_to_ycc` (R171). -/
def rgbToYcc (n : Num R) (s : Triple R) : Triple R where
  x0 := n.add (n.add (n.mul n.kYR s.x0) (n.mul n.kYG s.x1)) (n.mul n.kYB s.x2)
  x1 := n.add (n.sub (n.mul n.kPbR s.x0) (n.mul n.kPbG s.x1)) (n.mul n.kPbB s.x2)
  x2 := n.sub (n.sub (n.mul n.kPrR s.x0) (n.mul n.kPrG s.x1)) (n.mul n.kPrB s.x2)

/-- `ycc_to_rgb` (R173), with the parameter `K_B_PR` in the blue row. -/
def yccToRgb (p : Params R) (s : Triple R) : Triple R where
  x0 := p.num.add s.x0 (p.num.mul p.num.kRPr s.x2)
  x1 := p.num.sub (p.num.sub s.x0 (p.num.mul p.num.kGPb s.x1)) (p.num.mul p.num.kGPr s.x2)
  x2 := p.num.add (p.num.add s.x0 (p.num.mul p.num.kBPb s.x1)) (p.num.mul p.kBPr s.x2)

/-- RGB2YCC (R171). -/
def opRgb2ycc (p : Params R) (s : Triple R) : Except Exn (Result R) := .ok (.sample (rgbToYcc p.num s))

/-- YCC2RGB (R173). -/
def opYcc2rgb (p : Params R) (s : Triple R) : Except Exn (Result R) := .ok (.sample (yccToRgb p s))

def execRgb2ycc (sample : Triple Rat) (s : State) : Host.Outcome State Fault Refusal :=
  complete s (opRgb2ycc Config.params sample)

def execYcc2rgb (sample : Triple Rat) (s : State) : Host.Outcome State Fault Refusal :=
  complete s (opYcc2rgb Config.params sample)

end Sys2Proof.Machine
end

