-- ==== Sys2Proof/Machine/Pipeline.lean ====
section
/-! DEFINITION. The per-block pipeline: CBLK, DBLK (45_pipeline.md). Each is a composition of the other families' bodies; an
exception raised inside ends the composite with the same status (60_exceptions.md R234). -/

namespace Sys2Proof.Machine

variable {R : Type}

/-- A function on each of the four samples of a block. -/
def mapBlock (f : Triple R → Triple R) (b : Block R) : Block R := ⟨f b.s1, f b.s2, f b.s3, f b.s4⟩

/-- Each component clamped to [0,1] on its own (R216). -/
def clampSample (n : Num R) (s : Triple R) : Triple R :=
  ⟨clamp n s.x0 n.zero n.one, clamp n s.x1 n.zero n.one, clamp n s.x2 n.zero n.one⟩

/-- `cblk` (R215). -/
def cblk (p : Params R) (b : Block R) : Except Exn StreamBytes := do
  let ycc := mapBlock (rgbToYcc p.num) b
  let r := bfwd p ycc
  let cw ← pack r
  pure (serialize cw)

/-- `dblk` (R216): DBLK is the caller that clamps (90_conflicts.md C3). -/
def dblk (p : Params R) (bytes : StreamBytes) (nbytes : Nat) : Except Exn (Block R) := do
  let cw ← deserialize bytes nbytes
  let r ← unpack cw
  let ycc := binv p r
  pure (mapBlock (fun y => clampSample p.num (yccToRgb p y)) ycc)

/-- CBLK (R215). -/
def opCblk (p : Params R) (b : Block R) : Except Exn (Result R) := (cblk p b).map .bytes

/-- DBLK (R216). -/
def opDblk (p : Params R) (bytes : StreamBytes) (nbytes : Nat) : Except Exn (Result R) :=
  (dblk p bytes nbytes).map .block

def execCblk (block : Block Rat) (s : State) : Host.Outcome State Fault Refusal :=
  complete s (opCblk Config.params block)

def execDblk (bytes : StreamBytes) (nbytes : Nat) (s : State) : Host.Outcome State Fault Refusal :=
  complete s (opDblk Config.params bytes nbytes)

end Sys2Proof.Machine
end

