-- ==== Sys2Proof/Machine/Dispatch.lean ====
section
/-! DEFINITION. One arm per constructor of `Instr`, each one direct call of that instruction's meaning. -/

namespace Sys2Proof.Machine

def exec (i : Instr) (s : State) : Host.Outcome State Fault Refusal :=
  match i with
  -- BitField, extract (40_bitfield_extract.md)
  | .fitsu value width => Sys2Proof.Machine.execFitsu value width s
  | .fitss value width => Sys2Proof.Machine.execFitss value width s
  | .getu word width lsb => Sys2Proof.Machine.execGetu word width lsb s
  | .gets word width lsb => Sys2Proof.Machine.execGets word width lsb s
  -- BitField, insert (41_bitfield_insert.md)
  | .setu word width lsb value => Sys2Proof.Machine.execSetu word width lsb value s
  | .sets word width lsb value => Sys2Proof.Machine.execSets word width lsb value s
  -- Codeword (42_codeword.md)
  | .pack r => Sys2Proof.Machine.execPack r s
  | .unpack cw => Sys2Proof.Machine.execUnpack cw s
  | .ser cw => Sys2Proof.Machine.execSer cw s
  | .deser bytes nbytes => Sys2Proof.Machine.execDeser bytes nbytes s
  -- ColorTransform (43_color.md)
  | .rgb2ycc sample => Sys2Proof.Machine.execRgb2ycc sample s
  | .ycc2rgb sample => Sys2Proof.Machine.execYcc2rgb sample s
  -- BlockTransform (44_block.md)
  | .bfwd block => Sys2Proof.Machine.execBfwd block s
  | .binv r => Sys2Proof.Machine.execBinv r s
  -- Pipeline (45_pipeline.md)
  | .cblk block => Sys2Proof.Machine.execCblk block s
  | .dblk bytes nbytes => Sys2Proof.Machine.execDblk bytes nbytes s

end Sys2Proof.Machine
end

