-- ==== Sys2Proof/Machine/Accept.lean ====
section
/-! DEFINITION. Taking the next event off the host's side, and accepting a command (10_state.md R31; 60_exceptions.md R236). -/

namespace Sys2Proof.Machine

/-- The next event the host presents, and the state without it; none when the host presents nothing. -/
def nextEvent (s : State) : Option (Event Rat × State) :=
  match s.events with
  | [] => none
  | e :: rest => some (e, { s with events := rest })

/-- A command on the command port: the instruction it decodes to is executed; a reserved opcode raises ContractViolation, after the
FATAL gate and before anything else (R236, R237; 30_encoding.md R64). -/
def accept (c : Command Rat) (s : State) : Host.Outcome State Fault Refusal :=
  match decode c with
  | .ok i => exec i s
  | .error _ => complete s (.error .contractViolation)

/-- The command the host's table word stands for: the opcode in the low 8 bits, every operand port zero. -/
def tableCommand (nbits w : Nat) : Command Rat :=
  Command.ofOpcode (BitVec.ofNat 8 (w % 2 ^ nbits))

end Sys2Proof.Machine
end

