-- ==== Sys2Proof/Machine/Step.lean ====
section
/-! DEFINITION. One step: the next event of the host's side (10_state.md R31). A command is one step, its response emitted in it
(20_memory.md R46, R48); `rst` is one step and emits nothing; with no event CORE does nothing of itself
(notes/assumptions/2.md). -/

namespace Sys2Proof.Machine

def step (s : State) : Host.Outcome State Fault Refusal :=
  match nextEvent s with
  | none => .next s
  | some (.reset, t) => .next t.resetCore
  | some (.cmd c, t) => accept c t

/-- The table word as the very next command the host presents. -/
def State.withFetchWord (s : State) (nbits w : Nat) : State :=
  { s with events := .cmd (tableCommand nbits w) :: s.events }

end Sys2Proof.Machine
end

