-- ==== Sys2Proof/Machine/Transaction.lean ====
section
/-! DEFINITION. CORE as the spec writes it: `step : Params → State → Command → State × Response` (10_state.md R30), its body as
60_exceptions.md R236 gives it in full, and a run as 10_state.md R31 defines it. It holds for every `Params` over every carrier; the
machine of Step.lean is this function at `Config.params`, with the run's events and responses kept beside the state. -/

namespace Sys2Proof.Machine

variable {R : Type}

/-- The pseudocode of an instruction, for any parameters over the carrier of the machine. -/
def perform (p : Params Rat) (i : Instr) : Except Exn (Result Rat) :=
  match i with
  | .fitsu value width => opFitsu value width
  | .fitss value width => opFitss value width
  | .getu word width lsb => opGetu word width lsb
  | .gets word width lsb => opGets word width lsb
  | .setu word width lsb value => opSetu word width lsb value
  | .sets word width lsb value => opSets word width lsb value
  | .pack r => opPack r
  | .unpack cw => opUnpack cw
  | .ser cw => opSer cw
  | .deser bytes nbytes => opDeser bytes nbytes
  | .rgb2ycc sample => opRgb2ycc p sample
  | .ycc2rgb sample => opYcc2rgb p sample
  | .bfwd block => opBfwd p block
  | .binv r => opBinv p r
  | .cblk block => opCblk p block
  | .dblk bytes nbytes => opDblk p bytes nbytes

/-- "run the pseudocode of cmd.op's rule" (R236), on the ports of the command (R61), for every `NUM` over every carrier. -/
def runRule (p : Params R) (o : Opcode) (c : Command R) : Except Exn (Result R) :=
  match o with
  | .fitsu => opFitsu c.value c.width.toNat
  | .fitss => opFitss c.value c.width.toNat
  | .getu => opGetu c.word c.width.toNat c.lsb.toNat
  | .gets => opGets c.word c.width.toNat c.lsb.toNat
  | .setu => opSetu c.word c.width.toNat c.lsb.toNat c.value
  | .sets => opSets c.word c.width.toNat c.lsb.toNat c.value
  | .pack => opPack c.record
  | .unpack => opUnpack c.cw
  | .ser => opSer c.cw
  | .deser => opDeser c.bytes c.nbytes.toNat
  | .rgb2ycc => opRgb2ycc p c.sample
  | .ycc2rgb => opYcc2rgb p c.sample
  | .bfwd => opBfwd p c.block
  | .binv => opBinv p c.record
  | .cblk => opCblk p c.block
  | .dblk => opDblk p c.bytes c.nbytes.toNat

/-- The step of CORE, in full (R236). -/
def coreStep (p : Params R) (a : ArchState) (c : Command R) : ArchState × Response R :=
  if a.fatal then (a, .fatal)
  else
    match Opcode.ofBits? c.op with
    | none => ({ fatal := true }, .fatal)
    | some o =>
      match runRule p o c with
      | .ok r => (a, .ok r)
      | .error .contractViolation => ({ fatal := true }, .fatal)
      | .error .overflow => (a, .overflow)
      | .error .incompleteWord => (a, .incomplete)

/-- A run (R31): the events in order from a state; the final state, and the responses emitted, oldest first. -/
def coreRun (p : Params R) (a : ArchState) : List (Event R) → ArchState × List (Response R)
  | [] => (a, [])
  | .reset :: rest => coreRun p { fatal := false } rest
  | .cmd c :: rest =>
    let (a', r) := coreStep p a c
    let (a'', rs) := coreRun p a' rest
    (a'', r :: rs)

end Sys2Proof.Machine
end

