-- ==== Sys2Proof/Safety.lean ====
section
/-! DEFINITION. What counts as a safe run (10_state.md R31): `FATAL = 1` has recorded a fault and voids every claim about results
until a reset; OVERFLOW and INCOMPLETE are ordinary outcomes. Also the causes of a ContractViolation, as a condition on the
command alone (60_exceptions.md R231). -/

namespace Sys2Proof.Safety

open Sys2Proof.Machine

/-- No fault is recorded. -/
def noFault (s : State) : Bool := !s.arch.fatal

/-- A legal field descriptor (00_scope.md R19; 30_encoding.md R71). -/
def legalDescriptor (width lsb : Nat) : Bool := decide (width ≤ 64 ∧ width + lsb ≤ 64)

/-- The record's fields lie in the ranges that fit the codeword's fields (42_codeword.md R141, R142). -/
abbrev recordFits (r : Record) : Prop :=
  r.a.toNat ≤ 63 ∧ (-32 ≤ r.b.toInt ∧ r.b.toInt ≤ 31) ∧ (-32 ≤ r.c.toInt ∧ r.c.toInt ≤ 31) ∧
    (-32 ≤ r.d.toInt ∧ r.d.toInt ≤ 31) ∧ r.pbAvg.toNat ≤ 15 ∧ r.prAvg.toNat ≤ 15

/-- The instruction breaks a contract: the first two rows of R231's table. -/
def violates : Instr → Bool
  | .fitsu _ width => decide (width > 64)
  | .fitss _ width => decide (width > 64)
  | .getu _ width lsb => !legalDescriptor width lsb
  | .gets _ width lsb => !legalDescriptor width lsb
  | .setu _ width lsb _ => !legalDescriptor width lsb
  | .sets _ width lsb _ => !legalDescriptor width lsb
  | .pack _ => false
  | .unpack _ => false
  | .ser _ => false
  | .deser _ _ => false
  | .rgb2ycc _ => false
  | .ycc2rgb _ => false
  | .bfwd _ => false
  | .binv _ => false
  | .cblk _ => false
  | .dblk _ _ => false

/-- The command breaks a contract: those on its ports, or a reserved opcode (R231). -/
def commandViolates {R : Type} (c : Command R) : Bool :=
  match Opcode.ofBits? c.op with
  | none => true
  | some .fitsu => decide (c.width.toNat > 64)
  | some .fitss => decide (c.width.toNat > 64)
  | some .getu => !legalDescriptor c.width.toNat c.lsb.toNat
  | some .gets => !legalDescriptor c.width.toNat c.lsb.toNat
  | some .setu => !legalDescriptor c.width.toNat c.lsb.toNat
  | some .sets => !legalDescriptor c.width.toNat c.lsb.toNat
  | some .pack => false
  | some .unpack => false
  | some .ser => false
  | some .deser => false
  | some .rgb2ycc => false
  | some .ycc2rgb => false
  | some .bfwd => false
  | some .binv => false
  | some .cblk => false
  | some .dblk => false

/-- A safe run: no command among its events breaks a contract, so no fault is recorded at any point of it (R31). -/
def safeRun {R : Type} (events : List (Event R)) : Bool :=
  events.all fun e =>
    match e with
    | .cmd c => !commandViolates c
    | .reset => true

end Sys2Proof.Safety
end

