-- ==== Sys2Proof/Certificates/Slice0/Obligations.lean ====
section
/-! DEFINITION. The statements for the provers. Each docstring names the rule of spec/ it formalises. The helpers in
`Sys2Proof.Claims` restate the spec's closed forms in plain arithmetic, apart from the model's own definitions. Statements about
real-valued operations hold under `NUM_EXACT` (00_scope.md R8; notes/assumptions/3.md), and the value of the chroma lookup
stands in them as the free functions `Config.indexOfChroma` and `Config.chromaOfIndex` (R9; notes/assumptions/4.md). -/

namespace Sys2Proof.Claims

open Sys2Proof Sys2Proof.Machine Sys2Proof.Safety

/-- The state after a command answered with `r`: one more response, nothing else changed. -/
def answered (s : State) (r : Response Rat) : State :=
  { arch := s.arch, events := s.events, responses := s.responses ++ [r] }

/-- The state after a ContractViolation: `FATAL` set, one FATAL response, nothing else changed (60_exceptions.md R233). -/
def violated (s : State) : State :=
  { arch := { fatal := true }, events := s.events, responses := s.responses ++ [.fatal] }

/-- `−2^(width−1) ≤ v ≤ 2^(width−1) − 1`, and false at width 0 (40_bitfield_extract.md R96). -/
abbrev inSignedRange (v : Int) (width : Nat) : Prop :=
  1 ≤ width ∧ -(2 : Int) ^ (width - 1) ≤ v ∧ v ≤ (2 : Int) ^ (width - 1) - 1

/-- The bits of an inserted field (41_bitfield_insert.md R120, R122: the closed form). -/
def fieldReplaced (word : Word) (width lsb : Nat) (value word' : Word) : Prop :=
  ∀ i, i < 64 → word'.getLsbD i = if lsb ≤ i ∧ i < lsb + width then value.getLsbD (i - lsb) else word.getLsbD i

/-- What both extracts at `(w2, l2)` see of `w'`, the word left by inserting `v` into `w` at `(w1, l1)` (20_memory.md R45). -/
def seenThrough (w v : Word) (w1 l1 w2 l2 : Nat) (w' : Word) : Prop :=
  ∃ x y, getUnsigned w' w2 l2 = .ok x ∧ getSigned w' w2 l2 = .ok y ∧
    ∀ i, i < w2 →
      x.getLsbD i = (if l1 ≤ l2 + i ∧ l2 + i < l1 + w1 then v.getLsbD (l2 + i - l1) else w.getLsbD (l2 + i)) ∧
      y.getLsbD i = x.getLsbD i

/-- The codeword of a record (42_codeword.md R142: the closed form). -/
def codewordOf (r : Record) : Codeword :=
  BitVec.ofNat 32 (r.a.toNat * 2 ^ 26 + (r.b.toInt % 64).toNat * 2 ^ 20 + (r.c.toInt % 64).toNat * 2 ^ 14 +
    (r.d.toInt % 64).toNat * 2 ^ 8 + r.pbAvg.toNat * 2 ^ 4 + r.prAvg.toNat)

/-- The record of a codeword (42_codeword.md R144: the closed form). -/
def recordOf (cw : Codeword) : Record where
  a := BitVec.ofNat 64 (cw.toNat / 2 ^ 26)
  b := (cw.extractLsb' 20 6).signExtend 64
  c := (cw.extractLsb' 14 6).signExtend 64
  d := (cw.extractLsb' 8 6).signExtend 64
  pbAvg := BitVec.ofNat 64 (cw.toNat / 2 ^ 4 % 2 ^ 4)
  prAvg := BitVec.ofNat 64 (cw.toNat % 2 ^ 4)

/-- The stream image of a codeword, most significant byte first (20_memory.md R41). -/
def bytesOf (cw : Codeword) : StreamBytes :=
  ⟨BitVec.ofNat 8 (cw.toNat / 2 ^ 24), BitVec.ofNat 8 (cw.toNat / 2 ^ 16), BitVec.ofNat 8 (cw.toNat / 2 ^ 8),
    BitVec.ofNat 8 cw.toNat⟩

/-- The codeword of a stream image (42_codeword.md R145). -/
def joined (b : StreamBytes) : Codeword :=
  BitVec.ofNat 32 (b.b0.toNat * 2 ^ 24 + b.b1.toNat * 2 ^ 16 + b.b2.toNat * 2 ^ 8 + b.b3.toNat)

/-- The forward colour matrix (43_color.md R171). -/
def toYcc (s : Triple Rat) : Triple Rat where
  x0 := 0.299 * s.x0 + 0.587 * s.x1 + 0.114 * s.x2
  x1 := -0.168736 * s.x0 - 0.331264 * s.x1 + 0.5 * s.x2
  x2 := 0.5 * s.x0 - 0.418688 * s.x1 - 0.081312 * s.x2

/-- The inverse colour matrix at `K_B_PR = 0` (43_color.md R173). -/
def toRgb (s : Triple Rat) : Triple Rat where
  x0 := s.x0 + 1.402 * s.x2
  x1 := s.x0 - 0.344136 * s.x1 - 0.714136 * s.x2
  x2 := s.x0 + 1.772 * s.x1

/-- `quant_a` in exact arithmetic (44_block.md R188). -/
def quantizedA (a : Rat) : Word := BitVec.ofInt 64 ⌊max 0 (min 1 a) * 511 + 1 / 2⌋

/-- Truncation toward zero (44_block.md R187). -/
def towardZero (x : Rat) : Int := if x < 0 then -⌊-x⌋ else ⌊x⌋

/-- `quant_ac` in exact arithmetic (44_block.md R189). -/
def quantizedAc (x : Rat) : Word := BitVec.ofInt 64 (towardZero (max (-0.3) (min 0.3 x) * 50))

/-- The record of a block (44_block.md R193), with the free chroma lookup. -/
def forward (b : Block Rat) : Record where
  a := quantizedA ((b.s1.x0 + b.s2.x0 + b.s3.x0 + b.s4.x0) / 4)
  b := quantizedAc ((-b.s1.x0 - b.s2.x0 + b.s3.x0 + b.s4.x0) / 4)
  c := quantizedAc ((-b.s1.x0 + b.s2.x0 - b.s3.x0 + b.s4.x0) / 4)
  d := quantizedAc ((b.s1.x0 - b.s2.x0 - b.s3.x0 + b.s4.x0) / 4)
  pbAvg := Config.indexOfChroma ((b.s1.x1 + b.s2.x1 + b.s3.x1 + b.s4.x1) / 4)
  prAvg := Config.indexOfChroma ((b.s1.x2 + b.s2.x2 + b.s3.x2 + b.s4.x2) / 4)

/-- A dequantized AC coefficient (44_block.md R190). -/
def acOf (q : Word) : Rat := ((max (-15) (min 15 q.toInt) : Int) : Rat) / 50

/-- The block of a record (44_block.md R195), with the free chroma lookup. -/
def inverse (r : Record) : Block Rat :=
  let a : Rat := (r.a.toNat : Rat) / 511
  let pb := Config.chromaOfIndex r.pbAvg
  let pr := Config.chromaOfIndex r.prAvg
  { s1 := ⟨a - acOf r.b - acOf r.c + acOf r.d, pb, pr⟩
    s2 := ⟨a - acOf r.b + acOf r.c - acOf r.d, pb, pr⟩
    s3 := ⟨a + acOf r.b - acOf r.c - acOf r.d, pb, pr⟩
    s4 := ⟨a + acOf r.b + acOf r.c + acOf r.d, pb, pr⟩ }

/-- Each component clamped to [0,1] (45_pipeline.md R216). -/
def displayed (s : Triple Rat) : Triple Rat := ⟨max 0 (min 1 s.x0), max 0 (min 1 s.x1), max 0 (min 1 s.x2)⟩

/-- One of the six inserts of PACK as a host would issue it: signed or not, width, lsb, value (42_codeword.md R148). -/
structure InsertCall where
  signed : Bool
  width : Nat
  lsb : Nat
  value : Word

/-- The six inserts of PACK (42_codeword.md R142). -/
def insertCalls (r : Record) : List InsertCall :=
  [⟨false, 6, 26, r.a⟩, ⟨true, 6, 20, r.b⟩, ⟨true, 6, 14, r.c⟩, ⟨true, 6, 8, r.d⟩, ⟨false, 4, 4, r.pbAvg⟩, ⟨false, 4, 0, r.prAvg⟩]

/-- Issue one insert on a word. -/
def issue (w : Word) (k : InsertCall) : Except Exn Word :=
  if k.signed then setSigned w k.width k.lsb k.value else setUnsigned w k.width k.lsb k.value

/-- The instruction raises Overflow (60_exceptions.md R231, the four Overflow rows). -/
def overflows (p : Params Rat) : Instr → Prop
  | .setu _ width lsb value => width + lsb ≤ 64 ∧ 2 ^ width ≤ value.toNat
  | .sets _ width lsb value => width + lsb ≤ 64 ∧
      (width = 0 ∨ value.toInt < -(2 : Int) ^ (width - 1) ∨ value.toInt > (2 : Int) ^ (width - 1) - 1)
  | .pack r => r.a.toNat > 63 ∨ ¬ (-32 ≤ r.b.toInt ∧ r.b.toInt ≤ 31) ∨ ¬ (-32 ≤ r.c.toInt ∧ r.c.toInt ≤ 31) ∨
      ¬ (-32 ≤ r.d.toInt ∧ r.d.toInt ≤ 31) ∨ r.pbAvg.toNat > 15 ∨ r.prAvg.toNat > 15
  | .cblk b =>
      let r := bfwd p (mapBlock (rgbToYcc p.num) b)
      r.a.toNat > 63 ∨ r.pbAvg.toNat > 15 ∨ r.prAvg.toNat > 15
  | _ => False

/-- The instruction raises IncompleteWord (60_exceptions.md R231, the last row). -/
def incomplete : Instr → Prop
  | .deser _ n => n < 4
  | .dblk _ n => n < 4
  | _ => False

/-- Two commands hold the same on an operand port. -/
def agreeOn {R : Type} : OperandPort → Command R → Command R → Prop
  | .word, c, c' => c.word = c'.word
  | .width, c, c' => c.width = c'.width
  | .lsb, c, c' => c.lsb = c'.lsb
  | .value, c, c' => c.value = c'.value
  | .record, c, c' => c.record = c'.record
  | .cw, c, c' => c.cw = c'.cw
  | .bytes, c, c' => c.bytes = c'.bytes
  | .nbytes, c, c' => c.nbytes = c'.nbytes
  | .sample, c, c' => c.sample = c'.sample
  | .block, c, c' => c.block = c'.block

/-- How many of the events are commands. -/
def commandCount {R : Type} (es : List (Event R)) : Nat :=
  (es.filter fun e => match e with | .cmd _ => true | .reset => false).length

/-- While `FATAL = 1`, the last response emitted was FATAL. -/
def FatalWasReported (s : State) : Prop :=
  s.arch.fatal = true → s.responses.getLast? = some .fatal

end Sys2Proof.Claims

open Sys2Proof Sys2Proof.Machine Sys2Proof.Safety Sys2Proof.Claims

/-! ## BitField -/

/-- FITSU (R95): true iff `value < 2^width`, for every legal width; ContractViolation for every other. -/
def Obligations.FitsuAnswersWhetherValueIsBelowTwoToWidth : Prop :=
  ∀ (value : Word) (width : Nat) (s : State), s.arch.fatal = false →
    (width ≤ 64 →
      exec (.fitsu value width) s = .next (answered s (.ok (.flag (decide (value.toNat < 2 ^ width)))))) ∧
    (64 < width → exec (.fitsu value width) s = .next (violated s))

/-- FITSS (R96): true iff the value lies in the two's-complement range of the width, false at width 0; and the bit-level equivalent
R96 gives for widths 1..64 (an inference it marks as its own, from R90 and R92). -/
def Obligations.FitssAnswersWhetherValueIsInSignedRange : Prop :=
  ∀ (value : Word) (width : Nat) (s : State), s.arch.fatal = false →
    (width ≤ 64 →
      exec (.fitss value width) s = .next (answered s (.ok (.flag (decide (inSignedRange value.toInt width)))))) ∧
    (64 < width → exec (.fitss value width) s = .next (violated s)) ∧
    (1 ≤ width → width ≤ 64 →
      (inSignedRange value.toInt width ↔ shr64s (shl64 value (64 - width)) (64 - width) = value))

/-- GETU (R98): the field of every legal descriptor, zero-extended; ContractViolation for every other. -/
def Obligations.GetuAnswersTheUnsignedField : Prop :=
  ∀ (word : Word) (width lsb : Nat) (s : State), s.arch.fatal = false →
    (width + lsb ≤ 64 → ∃ r : Word,
      exec (.getu word width lsb) s = .next (answered s (.ok (.word r))) ∧
      r.toNat = word.toNat / 2 ^ lsb % 2 ^ width ∧
      ∀ i, r.getLsbD i = (decide (i < width) && word.getLsbD (lsb + i))) ∧
    (64 < width + lsb → exec (.getu word width lsb) s = .next (violated s))

/-- GETS (R100): the field of every legal descriptor, sign-extended, 0 at width 0; ContractViolation for every other. -/
def Obligations.GetsAnswersTheSignExtendedField : Prop :=
  ∀ (word : Word) (width lsb : Nat) (s : State), s.arch.fatal = false →
    (width + lsb ≤ 64 → ∃ r : Word,
      exec (.gets word width lsb) s = .next (answered s (.ok (.word r))) ∧
      r.toInt = (if width = 0 then 0
        else if 2 ^ (width - 1) ≤ word.toNat / 2 ^ lsb % 2 ^ width
          then ((word.toNat / 2 ^ lsb % 2 ^ width : Nat) : Int) - 2 ^ width
        else ((word.toNat / 2 ^ lsb % 2 ^ width : Nat) : Int)) ∧
      r = (word.extractLsb' lsb width).signExtend 64) ∧
    (64 < width + lsb → exec (.gets word width lsb) s = .next (violated s))

/-- SETU (R120): the bits of the field are the value's and every other bit is the word's; Overflow iff the value does not fit a
legal descriptor; ContractViolation iff the descriptor is illegal. -/
def Obligations.SetuReplacesTheFieldOrOverflows : Prop :=
  ∀ (word value : Word) (width lsb : Nat) (s : State), s.arch.fatal = false →
    (width + lsb ≤ 64 → value.toNat < 2 ^ width → ∃ r : Word,
      exec (.setu word width lsb value) s = .next (answered s (.ok (.word r))) ∧ fieldReplaced word width lsb value r) ∧
    (width + lsb ≤ 64 → 2 ^ width ≤ value.toNat →
      exec (.setu word width lsb value) s = .next (answered s .overflow)) ∧
    (64 < width + lsb → exec (.setu word width lsb value) s = .next (violated s))

/-- SETS (R122): the low bits of the two's-complement image go into the field; Overflow iff the value is outside the signed range,
always at width 0; ContractViolation iff the descriptor is illegal. -/
def Obligations.SetsReplacesTheFieldOrOverflows : Prop :=
  ∀ (word value : Word) (width lsb : Nat) (s : State), s.arch.fatal = false →
    (width + lsb ≤ 64 → inSignedRange value.toInt width → ∃ r : Word,
      exec (.sets word width lsb value) s = .next (answered s (.ok (.word r))) ∧ fieldReplaced word width lsb value r) ∧
    (width + lsb ≤ 64 → ¬ inSignedRange value.toInt width →
      exec (.sets word width lsb value) s = .next (answered s .overflow)) ∧
    (64 < width + lsb → exec (.sets word width lsb value) s = .next (violated s))

/-- The shift primitives (R90, R91, R92): as arithmetic for every count in 0..64, the arithmetic right shift 0 at 64. -/
def Obligations.ShiftPrimitivesAreArithmeticAndZeroAtSixtyFour : Prop :=
  ∀ (x : Word) (n : Nat), n ≤ 64 →
    (shl64 x n).toNat = x.toNat * 2 ^ n % 2 ^ 64 ∧
    (shr64u x n).toNat = x.toNat / 2 ^ n ∧
    (n < 64 → (shr64s x n).toInt = x.toInt / 2 ^ n ∧
      ∀ i, i < 64 → (shr64s x n).getLsbD i = if n + i < 64 then x.getLsbD (n + i) else x.getLsbD 63) ∧
    shl64 x 64 = 0 ∧ shr64u x 64 = 0 ∧ shr64s x 64 = 0 ∧
    shl64 x 0 = x ∧ shr64u x 0 = x

/-- The six laws of GETU (R99, an inference the spec marks as its own from R98 and R120): range, split, whole word, single bit, read after insert, disjoint insert. -/
def Obligations.UnsignedExtractionObeysItsSixLaws : Prop :=
  (∀ (w : Word) (n l : Nat), n + l ≤ 64 → ∃ x, getUnsigned w n l = .ok x ∧ x.toNat < 2 ^ n) ∧
  (∀ (w : Word) (n1 n2 l : Nat), n1 + n2 + l ≤ 64 → ∃ x y z,
    getUnsigned w (n1 + n2) l = .ok x ∧ getUnsigned w n1 l = .ok y ∧ getUnsigned w n2 (l + n1) = .ok z ∧
    x.toNat = y.toNat + 2 ^ n1 * z.toNat) ∧
  (∀ w : Word, getUnsigned w 64 0 = .ok w) ∧
  (∀ (w : Word) (l : Nat), l < 64 → ∃ x, getUnsigned w 1 l = .ok x ∧ x.toNat = (w.getLsbD l).toNat) ∧
  (∀ (w v : Word) (n l : Nat), n + l ≤ 64 → v.toNat < 2 ^ n → ∃ w',
    setUnsigned w n l v = .ok w' ∧ getUnsigned w' n l = .ok v) ∧
  (∀ (w v : Word) (n l n2 l2 : Nat), n + l ≤ 64 → n2 + l2 ≤ 64 → v.toNat < 2 ^ n2 →
    (n = 0 ∨ n2 = 0 ∨ l2 + n2 ≤ l ∨ l + n ≤ l2) → ∃ w' x,
      setUnsigned w n2 l2 v = .ok w' ∧ getUnsigned w' n l = .ok x ∧ getUnsigned w n l = .ok x)

/-- The laws of GETS (R101, an inference the spec marks as its own from R100 and R122): range, relation to GETU, whole word, read after insert for widths from 1; at width 0 SETS always
overflows. -/
def Obligations.SignedExtractionObeysItsLaws : Prop :=
  (∀ (w : Word) (n l : Nat), 1 ≤ n → n + l ≤ 64 → ∃ x, getSigned w n l = .ok x ∧ inSignedRange x.toInt n) ∧
  (∀ (w : Word) (n l : Nat), n + l ≤ 64 → ∃ x y, getSigned w n l = .ok x ∧ getUnsigned w n l = .ok y ∧
    x.toInt % 2 ^ n = y.toNat ∧ (x.toInt = y.toNat ↔ n = 0 ∨ w.getLsbD (l + n - 1) = false)) ∧
  (∀ w : Word, getSigned w 64 0 = .ok w) ∧
  (∀ (w v : Word) (n l : Nat), n + l ≤ 64 → inSignedRange v.toInt n → ∃ w',
    setSigned w n l v = .ok w' ∧ getSigned w' n l = .ok v) ∧
  (∀ (w v : Word) (l : Nat), l ≤ 64 → setSigned w 0 l v = .error .overflow)

/-- The laws of SETU (R121, an inference the spec marks as its own from R120 and R98): read back, frame, overwrite, commutation on disjoint fields, restore, arithmetic form. -/
def Obligations.UnsignedInsertionObeysItsSixLaws : Prop :=
  (∀ (w v : Word) (n l : Nat), n + l ≤ 64 → v.toNat < 2 ^ n → ∃ w',
    setUnsigned w n l v = .ok w' ∧ getUnsigned w' n l = .ok v ∧
    (∀ i, i < 64 → ¬ (l ≤ i ∧ i < l + n) → w'.getLsbD i = w.getLsbD i) ∧
    ∀ v2 : Word, v2.toNat < 2 ^ n → setUnsigned w' n l v2 = setUnsigned w n l v2) ∧
  (∀ (w v1 v2 : Word) (n1 l1 n2 l2 : Nat), n1 + l1 ≤ 64 → n2 + l2 ≤ 64 → v1.toNat < 2 ^ n1 → v2.toNat < 2 ^ n2 →
    (n1 = 0 ∨ n2 = 0 ∨ l1 + n1 ≤ l2 ∨ l2 + n2 ≤ l1) → ∃ x y z,
      setUnsigned w n1 l1 v1 = .ok x ∧ setUnsigned x n2 l2 v2 = .ok z ∧
      setUnsigned w n2 l2 v2 = .ok y ∧ setUnsigned y n1 l1 v1 = .ok z) ∧
  (∀ (w : Word) (n l : Nat), n + l ≤ 64 → ∃ x, getUnsigned w n l = .ok x ∧ setUnsigned w n l x = .ok w) ∧
  (∀ (w v : Word) (n l : Nat), n + l ≤ 64 → v.toNat < 2 ^ n → ∃ w' x,
    setUnsigned w n l v = .ok w' ∧ getUnsigned w n l = .ok x ∧
    (w'.toNat : Int) = (w.toNat : Int) - 2 ^ l * (x.toNat : Int) + 2 ^ l * (v.toNat : Int))

/-- The laws of SETS (R123, an inference the spec marks as its own from R122 and R100): read back, frame, relation to SETU, restore, agreement on values both accept. -/
def Obligations.SignedInsertionObeysItsFiveLaws : Prop :=
  (∀ (w v : Word) (n l : Nat), n + l ≤ 64 → inSignedRange v.toInt n → ∃ w',
    setSigned w n l v = .ok w' ∧ getSigned w' n l = .ok v ∧
    (∀ i, i < 64 → ¬ (l ≤ i ∧ i < l + n) → w'.getLsbD i = w.getLsbD i) ∧
    setUnsigned w n l (BitVec.ofInt 64 (v.toInt % 2 ^ n)) = .ok w') ∧
  (∀ (w : Word) (n l : Nat), 1 ≤ n → n + l ≤ 64 → ∃ x, getSigned w n l = .ok x ∧ setSigned w n l x = .ok w) ∧
  (∀ (w v : Word) (n l : Nat), 1 ≤ n → n + l ≤ 64 → 0 ≤ v.toInt → v.toInt ≤ 2 ^ (n - 1) - 1 →
    ∃ w', setSigned w n l v = .ok w' ∧ setUnsigned w n l v = .ok w')

/-- What an extract, signed or not, sees of a word written by an insert, signed or not, at another descriptor
(20_memory.md R45, an inference the spec marks as its own from R98 and R120). -/
def Obligations.ExtractSeesInsertedBitsWhereTheFieldsOverlap : Prop :=
  ∀ (w v : Word) (w1 l1 w2 l2 : Nat), w1 + l1 ≤ 64 → w2 + l2 ≤ 64 →
    (v.toNat < 2 ^ w1 → ∃ w', setUnsigned w w1 l1 v = .ok w' ∧ seenThrough w v w1 l1 w2 l2 w') ∧
    (inSignedRange v.toInt w1 → ∃ w', setSigned w w1 l1 v = .ok w' ∧ seenThrough w v w1 l1 w2 l2 w')

/-- Totality of the range tests and the extracts (R102, an inference the spec marks as its own from R94 to R100), and how many legal descriptors there are. -/
def Obligations.RangeTestsAndExtractsAnswerOkOrFatal : Prop :=
  (∀ (v : Word) (width : Nat) (s : State), s.arch.fatal = false → ∀ i ∈ [Instr.fitsu v width, Instr.fitss v width],
    (width ≤ 64 → ∃ f, exec i s = .next (answered s (.ok (.flag f)))) ∧
    (64 < width → exec i s = .next (violated s))) ∧
  (∀ (w : Word) (width lsb : Nat) (s : State), s.arch.fatal = false →
    ∀ i ∈ [Instr.getu w width lsb, Instr.gets w width lsb],
    (width ≤ 64 ∧ width + lsb ≤ 64 → ∃ x, exec i s = .next (answered s (.ok (.word x)))) ∧
    (¬ (width ≤ 64 ∧ width + lsb ≤ 64) → exec i s = .next (violated s))) ∧
  ((Finset.range 256 ×ˢ Finset.range 256).filter fun d => legalDescriptor d.1 d.2 = true).card = 2145

/-! ## Codeword -/

/-- PACK (R142): the codeword of a record that fits, Overflow for every other record. -/
def Obligations.PackAnswersTheCodewordOrOverflows : Prop :=
  ∀ (r : Record) (s : State), s.arch.fatal = false →
    (recordFits r → exec (.pack r) s = .next (answered s (.ok (.cw (codewordOf r))))) ∧
    (¬ recordFits r → exec (.pack r) s = .next (answered s .overflow))

/-- UNPACK (R144): total; the six fields of every codeword, and a record that always fits again. -/
def Obligations.UnpackAnswersARecordForEveryCodeword : Prop :=
  ∀ (cw : Codeword) (s : State), s.arch.fatal = false →
    exec (.unpack cw) s = .next (answered s (.ok (.record (recordOf cw)))) ∧ recordFits (recordOf cw)

/-- SER (R143, R41): total; the bytes of the codeword, most significant first. -/
def Obligations.SerEmitsTheMostSignificantByteFirst : Prop :=
  ∀ (cw : Codeword) (s : State), s.arch.fatal = false →
    exec (.ser cw) s = .next (answered s (.ok (.bytes (bytesOf cw)))) ∧ joined (bytesOf cw) = cw

/-- DESER (R145): the codeword of four bytes when `nbytes` is 4 or more, IncompleteWord below. -/
def Obligations.DeserJoinsFourBytesOrIsIncomplete : Prop :=
  ∀ (b : StreamBytes) (n : Nat) (s : State), s.arch.fatal = false →
    (4 ≤ n → exec (.deser b n) s = .next (answered s (.ok (.cw (joined b))))) ∧
    (n < 4 → exec (.deser b n) s = .next (answered s .incomplete))

/-- The round trips of R146, and, the other way round, those of R147 (an inference the spec marks as its own). -/
def Obligations.PackUnpackAndSerDeserAreInverse : Prop :=
  (∀ r : Record, recordFits r → ∃ cw, pack r = .ok cw ∧ unpack cw = .ok r) ∧
  (∀ cw : Codeword, ∃ r, unpack cw = .ok r ∧ recordFits r ∧ pack r = .ok cw) ∧
  (∀ cw : Codeword, deserialize (serialize cw) 4 = .ok cw) ∧
  (∀ b : StreamBytes, ∃ cw, deserialize b 4 = .ok cw ∧ serialize cw = b)

/-- PACK equals its six inserts issued in any order (R148, an inference the spec marks as its own from R142 and R144), and UNPACK its six extracts. -/
def Obligations.PackEqualsItsSixInsertsInAnyOrder : Prop :=
  (∀ (r : Record) (calls : List InsertCall), calls.Perm (insertCalls r) →
    (recordFits r → ∃ (w : Word) (cw : Codeword),
      calls.foldlM issue 0 = .ok w ∧ pack r = .ok cw ∧ w.toNat = cw.toNat) ∧
    (¬ recordFits r → calls.foldlM issue 0 = .error .overflow ∧ pack r = .error .overflow)) ∧
  (∀ cw : Codeword, ∃ r, unpack cw = .ok r ∧
    getUnsigned (cw.setWidth 64) 6 26 = .ok r.a ∧ getSigned (cw.setWidth 64) 6 20 = .ok r.b ∧
    getSigned (cw.setWidth 64) 6 14 = .ok r.c ∧ getSigned (cw.setWidth 64) 6 8 = .ok r.d ∧
    getUnsigned (cw.setWidth 64) 4 4 = .ok r.pbAvg ∧ getUnsigned (cw.setWidth 64) 4 0 = .ok r.prAvg)

/-- What each byte of the stream image holds of the six fields (20_memory.md R42, an inference the spec marks as its own from R41 and R141). -/
def Obligations.EachStreamByteHoldsItsPartOfTheFields : Prop :=
  ∀ (r : Record) (cw : Codeword), pack r = .ok cw →
    (serialize cw).b0 = r.a.extractLsb' 0 6 ++ r.b.extractLsb' 4 2 ∧
    (serialize cw).b1 = r.b.extractLsb' 0 4 ++ r.c.extractLsb' 2 4 ∧
    (serialize cw).b2 = r.c.extractLsb' 0 2 ++ r.d.extractLsb' 0 6 ∧
    (serialize cw).b3 = r.pbAvg.extractLsb' 0 4 ++ r.prAvg.extractLsb' 0 4

/-! ## ColorTransform -/

/-- RGB2YCC (R171), under `NUM_EXACT`: total, the forward matrix, no clamp; greys map to (t, 0, 0);
the ranges on [0,1] and where the chroma extremes are reached (the clauses on greys, ranges and extremes are inferences R171 marks
as its own). -/
def Obligations.RgbToYccIsTheForwardMatrix : Prop :=
  (∀ (x : Triple Rat) (s : State), s.arch.fatal = false →
    exec (.rgb2ycc x) s = .next (answered s (.ok (.sample (toYcc x))))) ∧
  (∀ t : Rat, toYcc ⟨t, t, t⟩ = ⟨t, 0, 0⟩) ∧
  (∀ r g b : Rat, 0 ≤ r → r ≤ 1 → 0 ≤ g → g ≤ 1 → 0 ≤ b → b ≤ 1 →
    0 ≤ (toYcc ⟨r, g, b⟩).x0 ∧ (toYcc ⟨r, g, b⟩).x0 ≤ 1 ∧
    -0.5 ≤ (toYcc ⟨r, g, b⟩).x1 ∧ (toYcc ⟨r, g, b⟩).x1 ≤ 0.5 ∧
    -0.5 ≤ (toYcc ⟨r, g, b⟩).x2 ∧ (toYcc ⟨r, g, b⟩).x2 ≤ 0.5) ∧
  (toYcc ⟨0, 0, 1⟩).x1 = 0.5 ∧ (toYcc ⟨1, 1, 0⟩).x1 = -0.5 ∧ (toYcc ⟨1, 0, 0⟩).x2 = 0.5 ∧ (toYcc ⟨0, 1, 1⟩).x2 = -0.5

/-- YCC2RGB (R173), under `NUM_EXACT` and the decided `K_B_PR = 0`: total, the inverse matrix, no clamp. -/
def Obligations.YccToRgbIsTheInverseMatrix : Prop :=
  ∀ (x : Triple Rat) (s : State), s.arch.fatal = false →
    exec (.ycc2rgb x) s = .next (answered s (.ok (.sample (toRgb x))))

/-- The colour round trip (R174: the composite and the bounds are an inference the spec marks as its own from R171 and R173), under `NUM_EXACT` and `K_B_PR = 0`: the exact composite, and the error bounds on [0,1]. -/
def Obligations.ColourRoundTripIsWithinTolerance : Prop :=
  ∀ r g b : Rat,
    yccToRgb Config.params (rgbToYcc Num.exact ⟨r, g, b⟩) =
      ⟨r - 0.000000576 * g + 0.000000576 * b,
       0.000000132096 * r + 1.000000041472 * g - 0.000000173568 * b,
       -0.000000192 * r + 0.000000192 * g + b⟩ ∧
    (0 ≤ r → r ≤ 1 → 0 ≤ g → g ≤ 1 → 0 ≤ b → b ≤ 1 →
      |(yccToRgb Config.params (rgbToYcc Num.exact ⟨r, g, b⟩)).x0 - r| ≤ 0.000000576 ∧
      |(yccToRgb Config.params (rgbToYcc Num.exact ⟨r, g, b⟩)).x1 - g| ≤ 0.000000173568 ∧
      |(yccToRgb Config.params (rgbToYcc Num.exact ⟨r, g, b⟩)).x2 - b| ≤ 0.000000192)

/-! ## BlockTransform -/

/-- `round_nearest` and `trunc_zero` (R186, R187), under `NUM_EXACT`: a nearest integer with ties away from zero, and truncation. -/
def Obligations.RoundingIsNearestAwayFromZeroAndTruncationIsTowardZero : Prop :=
  ∀ x : Rat,
    |(roundNearest Num.exact x : Rat) - x| ≤ 1 / 2 ∧
    (|(roundNearest Num.exact x : Rat) - x| = 1 / 2 → |x| < |(roundNearest Num.exact x : Rat)|) ∧
    (0 ≤ x → roundNearest Num.exact x = ⌊x + 1 / 2⌋) ∧
    (0 ≤ x → truncZero Num.exact x = ⌊x⌋) ∧
    (x < 0 → truncZero Num.exact x = -⌊-x⌋)

/-- The quantizers and dequantizers (R188, R189, R190), under `NUM_EXACT`: their values, ranges and thresholds. -/
def Obligations.QuantizersHaveTheirRangesAndThresholds : Prop :=
  (∀ a : Rat, ((quantA Num.exact a).toNat : Int) = ⌊max 0 (min 1 a) * 511 + 1 / 2⌋ ∧ (quantA Num.exact a).toNat ≤ 511 ∧
    (a < 1 / 1022 → quantA Num.exact a = 0) ∧ (a = 1 / 1022 → quantA Num.exact a = 1) ∧
    (1021 / 1022 ≤ a → quantA Num.exact a = 511) ∧
    ((quantA Num.exact a).toNat ≤ 63 ↔ a < 127 / 1022)) ∧
  (∀ x : Rat, (quantAc Num.exact x).toInt = towardZero (max (-0.3) (min 0.3 x) * 50) ∧
    -15 ≤ (quantAc Num.exact x).toInt ∧ (quantAc Num.exact x).toInt ≤ 15 ∧
    (0.3 ≤ x → (quantAc Num.exact x).toInt = 15) ∧ (x ≤ -0.3 → (quantAc Num.exact x).toInt = -15) ∧
    (|x| < 0.02 → (quantAc Num.exact x).toInt = 0) ∧
    (quantAc Num.exact (-x)).toInt = -(quantAc Num.exact x).toInt) ∧
  (∀ q : Word, dequantA Num.exact q = (q.toNat : Rat) / 511 ∧
    dequantAc Num.exact q = ((max (-15) (min 15 q.toInt) : Int) : Rat) / 50)

/-- The two butterflies are exact inverses under `NUM_EXACT` (R196, an inference the spec marks as its own from R191 and
R194). -/
def Obligations.ButterfliesAreExactInverses : Prop :=
  (∀ y : Quad Rat, inverseButterfly Num.exact (butterfly Num.exact y) = y) ∧
  (∀ k : Quad Rat, butterfly Num.exact (inverseButterfly Num.exact k) = k)

/-- BFWD (R193), under `NUM_EXACT`, for every value of the chroma lookup: total, the quantized butterfly and the chroma indices. -/
def Obligations.BfwdAnswersTheQuantizedButterfly : Prop :=
  ∀ (b : Block Rat) (s : State), s.arch.fatal = false →
    exec (.bfwd b) s = .next (answered s (.ok (.record (forward b))))

/-- BINV (R195), under `NUM_EXACT`, for every value of the chroma lookup: total on every record, no clamp of the luma. -/
def Obligations.BinvAnswersTheRecombinedBlock : Prop :=
  ∀ (r : Record) (s : State), s.arch.fatal = false →
    exec (.binv r) s = .next (answered s (.ok (.block (inverse r))))

/-- The error bounds of quantization (R197, an inference the spec marks as its own from R188 to R194), under `NUM_EXACT` and for every chroma lookup. -/
def Obligations.QuantizationErrorIsWithinItsBounds : Prop :=
  (∀ a : Rat, 0 ≤ a → a ≤ 1 → |dequantA Num.exact (quantA Num.exact a) - a| ≤ 1 / 1022) ∧
  (∀ x : Rat, |x| ≤ 0.3 →
    |dequantAc Num.exact (quantAc Num.exact x) - x| < 1 / 50 ∧
    ((0 ≤ x → 0 ≤ dequantAc Num.exact (quantAc Num.exact x) ∧ dequantAc Num.exact (quantAc Num.exact x) ≤ x) ∧
     (x ≤ 0 → x ≤ dequantAc Num.exact (quantAc Num.exact x) ∧ dequantAc Num.exact (quantAc Num.exact x) ≤ 0))) ∧
  (∀ x : Rat, 0.3 < |x| → |dequantAc Num.exact (quantAc Num.exact x) - x| = |x| - 0.3) ∧
  (∀ (p : Params Rat) (b : Block Rat), p.num = Num.exact →
    0 ≤ (butterfly Num.exact (luma b)).q1 → (butterfly Num.exact (luma b)).q1 ≤ 1 →
    |(butterfly Num.exact (luma b)).q2| ≤ 0.3 → |(butterfly Num.exact (luma b)).q3| ≤ 0.3 →
    |(butterfly Num.exact (luma b)).q4| ≤ 0.3 →
      |(binv p (bfwd p b)).s1.x0 - b.s1.x0| < 1 / 1022 + 3 / 50 ∧
      |(binv p (bfwd p b)).s2.x0 - b.s2.x0| < 1 / 1022 + 3 / 50 ∧
      |(binv p (bfwd p b)).s3.x0 - b.s3.x0| < 1 / 1022 + 3 / 50 ∧
      |(binv p (bfwd p b)).s4.x0 - b.s4.x0| < 1 / 1022 + 3 / 50)

/-! ## Pipeline -/

/-- CBLK (R215), under `NUM_EXACT`, for every value of the chroma lookup: the bytes of the packed record when `a` and the two chroma
indices fit, Overflow and no bytes otherwise. -/
def Obligations.CblkCompressesTheBlockOrOverflows : Prop :=
  ∀ (b : Block Rat) (s : State), s.arch.fatal = false →
    let r := forward ⟨toYcc b.s1, toYcc b.s2, toYcc b.s3, toYcc b.s4⟩
    exec (.cblk b) s = .next (answered s
      (if r.a.toNat ≤ 63 ∧ r.pbAvg.toNat ≤ 15 ∧ r.prAvg.toNat ≤ 15 then .ok (.bytes (bytesOf (codewordOf r))) else .overflow))

/-- DBLK (R216), under `NUM_EXACT` and `K_B_PR = 0`, for every value of the chroma lookup: four clamped samples when `nbytes` is 4 or
more, IncompleteWord below. -/
def Obligations.DblkDecompressesTheBlockOrIsIncomplete : Prop :=
  ∀ (bs : StreamBytes) (n : Nat) (s : State), s.arch.fatal = false →
    (4 ≤ n →
      let y := inverse (recordOf (joined bs))
      exec (.dblk bs n) s = .next (answered s (.ok (.block
        ⟨displayed (toRgb y.s1), displayed (toRgb y.s2), displayed (toRgb y.s3), displayed (toRgb y.s4)⟩)))) ∧
    (n < 4 → exec (.dblk bs n) s = .next (answered s .incomplete))

/-- Every output component of DBLK is in [0,1] (R217 (3)), under `NUM_EXACT` and for every chroma lookup and `K_B_PR`; and so it is
in the order of any other `NUM` whose 0 is not above its 1. -/
def Obligations.DblkOutputsAreInTheUnitInterval : Prop :=
  (∀ (p : Params Rat) (bs : StreamBytes) (n : Nat) (b : Block Rat), p.num = Num.exact → dblk p bs n = .ok b →
    ∀ t ∈ [b.s1, b.s2, b.s3, b.s4], ∀ x ∈ [t.x0, t.x1, t.x2], 0 ≤ x ∧ x ≤ 1) ∧
  (∀ (R : Type) (p : Params R) (bs : StreamBytes) (n : Nat) (b : Block R), p.num.le p.num.zero p.num.one = true →
    dblk p bs n = .ok b → ∀ t ∈ [b.s1, b.s2, b.s3, b.s4], ∀ x ∈ [t.x0, t.x1, t.x2],
      p.num.le p.num.zero x = true ∧ p.num.le x p.num.one = true)

/-- The pipeline equals its sequence of operations, each result fed forward (R217 (1)), for every `Params` over every
carrier. -/
def Obligations.PipelineEqualsItsSequenceOfOperations : Prop :=
  (∀ (R : Type) (p : Params R) (b : Block R), ∃ y1 y2 y3 y4 r,
    opRgb2ycc p b.s1 = .ok (.sample y1) ∧ opRgb2ycc p b.s2 = .ok (.sample y2) ∧
    opRgb2ycc p b.s3 = .ok (.sample y3) ∧ opRgb2ycc p b.s4 = .ok (.sample y4) ∧
    opBfwd p ⟨y1, y2, y3, y4⟩ = .ok (.record r) ∧
    ((opPack (R := R) r = .error .overflow ∧ opCblk p b = .error .overflow) ∨
     ∃ cw bs, opPack (R := R) r = .ok (.cw cw) ∧ opSer (R := R) cw = .ok (.bytes bs) ∧
       opCblk p b = .ok (.bytes bs))) ∧
  (∀ (R : Type) (p : Params R) (bs : StreamBytes) (n : Nat), 4 ≤ n → ∃ cw r y z1 z2 z3 z4,
    opDeser (R := R) bs n = .ok (.cw cw) ∧ opUnpack (R := R) cw = .ok (.record r) ∧
    opBinv p r = .ok (.block y) ∧
    opYcc2rgb p y.s1 = .ok (.sample z1) ∧ opYcc2rgb p y.s2 = .ok (.sample z2) ∧
    opYcc2rgb p y.s3 = .ok (.sample z3) ∧ opYcc2rgb p y.s4 = .ok (.sample z4) ∧
    opDblk p bs n =
      .ok (.block ⟨clampSample p.num z1, clampSample p.num z2, clampSample p.num z3, clampSample p.num z4⟩)) ∧
  (∀ (R : Type) (p : Params R) (bs : StreamBytes) (n : Nat), n < 4 →
    opDeser (R := R) bs n = .error .incompleteWord ∧ opDblk p bs n = .error .incompleteWord)

/-- A block whose mean luma is 127/1022 or more never packs (R150, R198), and a grey block of four equal samples from that value up
is answered OVERFLOW by CBLK (R215), under `NUM_EXACT` and for every chroma lookup. -/
def Obligations.BrightBlocksOverflow : Prop :=
  (∀ (p : Params Rat) (b : Block Rat), p.num = Num.exact → 127 / 1022 ≤ (b.s1.x0 + b.s2.x0 + b.s3.x0 + b.s4.x0) / 4 →
    pack (bfwd p b) = .error .overflow) ∧
  (∀ (t : Rat) (s : State), s.arch.fatal = false → 127 / 1022 ≤ t →
    exec (.cblk ⟨⟨t, t, t⟩, ⟨t, t, t⟩, ⟨t, t, t⟩, ⟨t, t, t⟩⟩) s = .next (answered s .overflow))

/-! ## Exceptions and the FATAL bit -/

/-- Which operations make which contract check, and the effect of breaking it (R94). -/
def Obligations.BrokenContractsAreAnsweredFatalAndLatch : Prop :=
  ∀ (i : Instr) (s : State), s.arch.fatal = false →
    (violates i = true → exec i s = .next (violated s)) ∧
    (violates i = false → ∃ r, r ≠ .fatal ∧ exec i s = .next (answered s r))

/-- The causes of each exception, exhaustively (R231), under `NUM_EXACT` and for every chroma lookup and `K_B_PR`. -/
def Obligations.ExceptionsHaveExactlyTheirCauses : Prop :=
  ∀ (p : Params Rat) (c : Command Rat), p.num = Num.exact →
    ((coreStep p ⟨false⟩ c).2 = .fatal ↔
      Opcode.ofBits? c.op = none ∨ ∃ i, decode c = .ok i ∧ violates i = true) ∧
    ((coreStep p ⟨false⟩ c).2 = .overflow ↔ ∃ i, decode c = .ok i ∧ overflows p i) ∧
    ((coreStep p ⟨false⟩ c).2 = .incomplete ↔ ∃ i, decode c = .ok i ∧ incomplete i)

/-- What each exception does (R233, R234, R235). -/
def Obligations.EachExceptionHasItsResponseAndEffect : Prop :=
  ∀ (i : Instr) (e : Exn) (s : State), s.arch.fatal = false → perform Config.params i = .error e →
    exec i s = .next (match e with
      | .contractViolation => violated s
      | .overflow => answered s .overflow
      | .incompleteWord => answered s .incomplete)

/-- Exceptions are precise (R238, an inference the spec marks as its own from R236): a command completes wholly, or not at all and with no state change but `FATAL`; for every
`Params`. -/
def Obligations.CommandsCompleteWhollyOrNotAtAll : Prop :=
  ∀ (R : Type) (p : Params R) (c : Command R),
    (∃ r, coreStep p ⟨false⟩ c = (⟨false⟩, .ok r)) ∨ coreStep p ⟨false⟩ c = (⟨false⟩, .overflow) ∨
    coreStep p ⟨false⟩ c = (⟨false⟩, .incomplete) ∨ coreStep p ⟨false⟩ c = (⟨true⟩, .fatal)

/-- Priority (R237): the FATAL gate before a reserved opcode, ContractViolation before Overflow. -/
def Obligations.ContractViolationComesBeforeOverflow : Prop :=
  (∀ (word value : Word) (width lsb : Nat) (s : State), s.arch.fatal = false → 64 < width + lsb →
    (2 ^ width ≤ value.toNat → exec (.setu word width lsb value) s = .next (violated s)) ∧
    (¬ inSignedRange value.toInt width → exec (.sets word width lsb value) s = .next (violated s))) ∧
  (∀ (c : Command Rat) (s : State), s.arch.fatal = true → Opcode.ofBits? c.op = none →
    accept c s = .next (answered s .fatal))

/-- A reserved opcode (R64): ContractViolation, whatever stands on the operand ports. -/
def Obligations.ReservedOpcodesAreContractViolations : Prop :=
  ∀ (c : Command Rat) (rest : List (Event Rat)) (s : State), s.arch.fatal = false → s.events = .cmd c :: rest →
    c.op ∉ ([0x00, 0x01, 0x02, 0x03, 0x04, 0x05, 0x10, 0x11, 0x12, 0x13, 0x20, 0x21, 0x30, 0x31, 0x40, 0x41] : List Byte) →
      step s = .next (violated { s with events := rest })

/-- While `FATAL = 1` every command, legal or not, is answered FATAL and has no other effect (R236). -/
def Obligations.FatalGateAnswersEveryCommand : Prop :=
  (∀ (i : Instr) (s : State), s.arch.fatal = true → exec i s = .next (answered s .fatal)) ∧
  (∀ (c : Command Rat) (rest : List (Event Rat)) (s : State), s.arch.fatal = true → s.events = .cmd c :: rest →
    step s = .next (answered { s with events := rest } .fatal))

/-- Who writes `FATAL` (R22): to 1 a ContractViolation and nothing else, to 0 reset and nothing else. -/
def Obligations.FatalIsSetOnlyByViolationAndClearedOnlyByReset : Prop :=
  ∀ (s t : State), step s = .next t →
    (s.arch.fatal = false →
      (t.arch.fatal = true ↔ ∃ c rest, s.events = .cmd c :: rest ∧ commandViolates c = true)) ∧
    (s.arch.fatal = true → (t.arch.fatal = false ↔ ∃ rest, s.events = .reset :: rest)) ∧
    (∀ c rest, s.events = .cmd c :: rest → t.fatalOut = true → t.responses = s.responses ++ [.fatal])

/-! ## Steps and runs -/

/-- A step executes the instruction the next command decodes to; around `exec` a step only takes the command off the events. -/
def Obligations.StepExecutesTheDecodedInstruction : Prop :=
  ∀ (s : State) (c : Command Rat) (rest : List (Event Rat)) (i : Instr), s.events = .cmd c :: rest → decode c = .ok i →
    step s = exec i { s with events := rest }

/-- Reset (R29, R260): `FATAL = 0`, nothing else changed, nothing emitted; and the reset state. -/
def Obligations.ResetClearsFatalAndEmitsNothing : Prop :=
  (∀ (s : State) (rest : List (Event Rat)), s.events = .reset :: rest →
    step s = .next { arch := { fatal := false }, events := rest, responses := s.responses }) ∧
  State.reset.arch.fatal = false ∧ State.reset.fatalOut = false ∧ State.reset.responses = []

/-- THE MODEL'S CHOICE (notes/assumptions/2.md): with no event a step changes nothing. With one, it takes exactly that event; and a
step always answers a next state. -/
def Obligations.StepTakesAtMostOneEventAndAlwaysAnswers : Prop :=
  ∀ s : State, ∃ t, step s = .next t ∧ (s.events = [] → t = s) ∧ t.events = s.events.tail ∧
    ∃ rs, t.responses = s.responses ++ rs ∧ rs.length = commandCount (s.events.take 1)

/-- The machine's step is the step of R236 at the machine's parameters, on every command. -/
def Obligations.MachineStepRefinesTheSpecifiedStep : Prop :=
  ∀ (s : State) (c : Command Rat) (rest : List (Event Rat)), s.events = .cmd c :: rest →
    step s = .next
      { arch := (coreStep Config.params s.arch c).1
        events := rest
        responses := s.responses ++ [(coreStep Config.params s.arch c).2] }

/-- The machine's run is the run of R31: as many steps as there are events answer them in order. -/
def Obligations.MachineRunIsTheSpecifiedRun : Prop :=
  ∀ s : State, Host.Core.run core s.events.length s = .next
    { arch := (coreRun Config.params s.arch s.events).1
      events := []
      responses := s.responses ++ (coreRun Config.params s.arch s.events).2 }

/-- Every command is answered, one response each, in every run (R31). THE MODEL'S CHOICE (notes/assumptions/8.md): a reset lands
between two commands, so a command presented before a reset is always answered here; R272 excepts an intervening reset, which on
the block drops a command accepted and not yet answered (R260). -/
def Obligations.EveryCommandIsAnsweredOnce : Prop :=
  ∀ s : State, ∃ t : State, Host.Core.run core s.events.length s = .next t ∧ t.events = [] ∧
    t.responses.length = s.responses.length + commandCount s.events

/-- Every step keeps: while `FATAL = 1`, the last response emitted was FATAL (R22, R233). -/
def Obligations.EveryStepKeepsFatalReported : Prop :=
  ∀ s t : State, FatalWasReported s → step s = .next t → FatalWasReported t

/-- That invariant holds after reset. -/
def Obligations.ResetHasFatalReported : Prop := FatalWasReported State.reset

/-- A run in which no command breaks a contract stays free of FATAL, and any other reports it (R31), for every `Params`. -/
def Obligations.RunsReportFatalExactlyWhenACommandViolates : Prop :=
  ∀ (R : Type) (p : Params R) (es : List (Event R)),
    (safeRun es = true → (coreRun p ⟨false⟩ es).1.fatal = false) ∧
    (.fatal ∈ (coreRun p ⟨false⟩ es).2 ↔ safeRun es = false)

/-- Each non-FATAL response depends on its own command alone (10_state.md R27; 20_memory.md R49), for every `Params`. -/
def Obligations.ResponsesDependOnTheirOwnCommandAlone : Prop :=
  (∀ (R : Type) (p : Params R) (a : ArchState) (c : Command R), (coreStep p a c).2 ≠ .fatal →
    (coreStep p a c).2 = (coreStep p ⟨false⟩ c).2) ∧
  (∀ (R : Type) (p : Params R) (cs : List (Command R)), (∀ c ∈ cs, commandViolates c = false) →
    coreRun p ⟨false⟩ (cs.map .cmd) = (⟨false⟩, cs.map fun c => (coreStep p ⟨false⟩ c).2))

/-- Every operation other than a ContractViolation is idempotent (20_memory.md R46), for every `Params`. -/
def Obligations.CommandsOtherThanViolationsAreIdempotent : Prop :=
  ∀ (R : Type) (p : Params R) (a : ArchState) (c : Command R), (coreStep p a c).2 ≠ .fatal →
    (coreStep p a c).1 = a ∧ coreStep p (coreStep p a c).1 c = coreStep p a c

/-! ## Encoding -/

/-- Decode of encode is the instruction, for every well-formed instruction and whatever stands on the ports outside its format. -/
def Obligations.DecodeOfEncodeIsTheInstruction : Prop :=
  ∀ (i : Instr) (c : Command Rat), i.wf = true → decode (encodeOver c i) = .ok i

/-- Encode of decode is the command: every bit of the opcode and of the ports of the format is read. -/
def Obligations.EncodeOfDecodeIsTheCommand : Prop :=
  ∀ (c : Command Rat) (i : Instr), decode c = .ok i → encodeOver c i = c ∧ i.wf = true

/-- The opcode map (R62, R64): each operation has its own opcode, the whole of `op` is compared, and 240 values are reserved. -/
def Obligations.OpcodeMapIsInjectiveAndReservesTheRest : Prop :=
  (∀ (op : Byte) (o : Opcode), Opcode.ofBits? op = some o ↔ op = o.row.bits) ∧
  (Opcode.all.map fun o => (o.row.bits, o.row.mnemonic, o.row.format, o.row.sourceFunction)) =
    [(0x00, "FITSU", .F, "fits_unsigned"), (0x01, "FITSS", .F, "fits_signed"), (0x02, "GETU", .X, "get_unsigned"),
     (0x03, "GETS", .X, "get_signed"), (0x04, "SETU", .I, "set_unsigned"), (0x05, "SETS", .I, "set_signed"),
     (0x10, "PACK", .R, "pack"), (0x11, "UNPACK", .W, "unpack"), (0x12, "SER", .W, "serialize"),
     (0x13, "DESER", .B, "deserialize"), (0x20, "RGB2YCC", .S, "rgb_to_ycc"), (0x21, "YCC2RGB", .S, "ycc_to_rgb"),
     (0x30, "BFWD", .K, "BlockTransform forward"), (0x31, "BINV", .R, "BlockTransform inverse"),
     (0x40, "CBLK", .K, "compression data flow"), (0x41, "DBLK", .B, "decompression data flow")] ∧
  ((List.range 256).filter fun n => (Opcode.ofBits? (BitVec.ofNat 8 n)).isNone).length = 240

/-- A few opcodes, written out bit by bit from R62, select their instructions; that the operands of a table word are zero is THE
MODEL'S CHOICE (notes/assumptions/7.md), for the opcode table gives operands no bits. -/
def Obligations.TableWordsDecodeToTheirInstructions : Prop :=
  decodeTableWord 8 0b00000010 = some (.getu 0 0 0) ∧ decodeTableWord 8 0b00000101 = some (.sets 0 0 0 0) ∧
  decodeTableWord 8 0b00010011 = some (.deser .zero 0) ∧ decodeTableWord 8 0b00100001 = some (.ycc2rgb .zero) ∧
  decodeTableWord 8 0b00110000 = some (.bfwd .zero) ∧ decodeTableWord 8 0b01000001 = some (.dblk .zero 0) ∧
  decodeTableWord 8 0b00000110 = none

/-- Formats (R61): a command's effect and response depend on `op` and on the ports its format reads and on no other, and on OK the
one result port driven is the operation's, both as in the table of R61; for every `Params`. -/
def Obligations.FormatsNameThePortsReadAndDriven : Prop :=
  (∀ (R : Type) (p : Params R) (a : ArchState) (c c' : Command R), c.op = c'.op →
    (∀ o, Opcode.ofBits? c.op = some o → ∀ port ∈ o.row.format.reads, agreeOn port c c') →
      coreStep p a c = coreStep p a c') ∧
  (∀ (R : Type) (p : Params R) (a : ArchState) (c : Command R) (r : Result R), (coreStep p a c).2 = .ok r →
    ∃ o, Opcode.ofBits? c.op = some o ∧ r.port = o.drives) ∧
  (Opcode.all.map fun o => (o, o.row.format.reads, o.drives)) =
    [(.fitsu, [.value, .width], .flag), (.fitss, [.value, .width], .flag),
     (.getu, [.word, .width, .lsb], .word), (.gets, [.word, .width, .lsb], .word),
     (.setu, [.word, .width, .lsb, .value], .word), (.sets, [.word, .width, .lsb, .value], .word),
     (.pack, [.record], .cw), (.unpack, [.cw], .record), (.ser, [.cw], .bytes), (.deser, [.bytes, .nbytes], .cw),
     (.rgb2ycc, [.sample], .sample), (.ycc2rgb, [.sample], .sample), (.bfwd, [.block], .record), (.binv, [.record], .block),
     (.cblk, [.block], .bytes), (.dblk, [.bytes, .nbytes], .block)]

/-- The status and the result of a response (R66, R67): a result stands on status OK and on no other. -/
def Obligations.OnlyStatusOkCarriesAResult : Prop :=
  ∀ (R : Type) (p : Params R) (a : ArchState) (c : Command R),
    ((coreStep p a c).2.result?.isSome = true ↔ (coreStep p a c).2.status = 0) ∧
    (a.fatal = true → (coreStep p a c).2.status = 3)

/-- The textual form (R69), over tokenised operands: every instruction is written by its mnemonic or its source function's name and
its operands in order. -/
def Obligations.AssemblyOfTheWrittenFormIsTheInstruction : Prop :=
  ∀ i : Instr, i.wf = true →
    assemble i.mnemonic i.operands = some i ∧ assemble i.opcode.row.sourceFunction i.operands = some i
end

