-- ==== Sys2Proof/Laws/State.lean ====
section
/-! SUPPORT. One lemma per field per update of the state. -/

namespace Sys2Proof.Machine

@[simp] theorem reset_arch : State.reset.arch = { fatal := false } := rfl
@[simp] theorem reset_events : State.reset.events = [] := rfl
@[simp] theorem reset_responses : State.reset.responses = [] := rfl

@[simp] theorem respond_arch (s : State) (r : Response Rat) : (s.respond r).arch = s.arch := rfl
@[simp] theorem respond_events (s : State) (r : Response Rat) : (s.respond r).events = s.events := rfl
@[simp] theorem respond_responses (s : State) (r : Response Rat) : (s.respond r).responses = s.responses ++ [r] := rfl

@[simp] theorem takeException_arch (s : State) (e : Exn) : (s.takeException e).arch = e.effect s.arch := rfl
@[simp] theorem takeException_events (s : State) (e : Exn) : (s.takeException e).events = s.events := rfl
@[simp] theorem takeException_responses (s : State) (e : Exn) :
    (s.takeException e).responses = s.responses ++ [e.response] := rfl

@[simp] theorem resetCore_arch (s : State) : s.resetCore.arch = { fatal := false } := rfl
@[simp] theorem resetCore_events (s : State) : s.resetCore.events = s.events := rfl
@[simp] theorem resetCore_responses (s : State) : s.resetCore.responses = s.responses := rfl

@[simp] theorem effect_contractViolation (a : ArchState) : Exn.contractViolation.effect a = { fatal := true } := rfl
@[simp] theorem effect_overflow (a : ArchState) : Exn.overflow.effect a = a := rfl
@[simp] theorem effect_incompleteWord (a : ArchState) : Exn.incompleteWord.effect a = a := rfl

@[simp] theorem fatalOut_eq (s : State) : s.fatalOut = s.arch.fatal := rfl

end Sys2Proof.Machine
end

