-- ==== Sys2Proof/Laws/Ops.lean ====
section
/-! SUPPORT. What the shared operations do, said once: the shift primitives as arithmetic and as bits, the contract checks, the
range tests, and completing a command. -/

namespace Sys2Proof.Machine

/-! ## Shift primitives -/

theorem shl64_eq (x : Word) (s : Nat) : shl64 x s = x <<< s := by
  unfold shl64
  split
  · apply BitVec.eq_of_toNat_eq
    simp [BitVec.toNat_shiftLeft, Nat.shiftLeft_eq]
  · exact (BitVec.shiftLeft_eq_zero (by omega)).symm

theorem shr64u_eq (x : Word) (s : Nat) : shr64u x s = x >>> s := by
  unfold shr64u
  have hx := x.isLt
  split
  · apply BitVec.eq_of_toNat_eq
    simp only [BitVec.toNat_ofNat, BitVec.toNat_ushiftRight, Nat.shiftRight_eq_div_pow]
    exact Nat.mod_eq_of_lt (Nat.lt_of_le_of_lt (Nat.div_le_self _ _) hx)
  · exact (BitVec.ushiftRight_eq_zero (by omega)).symm

theorem shr64s_eq (x : Word) (s : Nat) (h : s < 64) : shr64s x s = x.sshiftRight s := by
  unfold shr64s
  rw [if_pos h]
  apply BitVec.eq_of_toInt_eq
  have hlo := BitVec.le_toInt x
  have hhi := BitVec.toInt_lt (x := x)
  have hb : (1 : Int) ≤ 2 ^ s := by exact_mod_cast Nat.one_le_two_pow
  have hlo' : -2 ^ 63 ≤ x.toInt / 2 ^ s := Int.le_ediv_of_mul_le (by omega) (by norm_num at hlo ⊢; nlinarith)
  have hhi' : x.toInt / 2 ^ s < 2 ^ 63 := Int.ediv_lt_of_lt_mul (by omega) (by norm_num at hhi ⊢; nlinarith)
  rw [BitVec.toInt_sshiftRight, BitVec.toInt_ofInt, Int.shiftRight_eq_div_pow]
  push_cast
  exact Int.bmod_eq_of_le (by simpa using hlo') (by simpa using hhi')

/-! ## Contract checks -/

/-- A legal descriptor (30_encoding.md R71). -/
theorem checkDesc_ok {width lsb : Nat} (h : width + lsb ≤ 64) : checkDesc width lsb = .ok () := by
  simp [checkDesc]; omega

theorem checkDesc_error {width lsb : Nat} (h : 64 < width + lsb) :
    checkDesc width lsb = .error .contractViolation := by
  simp [checkDesc]; omega

theorem checkWidth_ok {width : Nat} (h : width ≤ 64) : checkWidth width = .ok () := by
  simp [checkWidth, h]

theorem checkWidth_error {width : Nat} (h : 64 < width) : checkWidth width = .error .contractViolation := by
  simp [checkWidth, h]

/-! ## Range tests -/

/-- The shift form of `fits_unsigned` is "true iff value < 2^width" (R95). -/
theorem fitsUnsigned_eq (value : Word) (width : Nat) : fitsUnsigned value width = decide (value.toNat < 2 ^ width) := by
  have h : (value.toNat / 2 ^ width = 0) = (value.toNat < 2 ^ width) :=
    propext (Nat.div_eq_zero_iff_lt (by positivity))
  simp [fitsUnsigned, shr64u_eq, BitVec.toNat_eq, Nat.shiftRight_eq_div_pow, Bool.beq_eq_decide_eq, h]

/-! ## Completing a command -/

/-- What completing a command can do: the FATAL gate (R236), a result, or an exception (R233 to R235). -/
theorem complete_cases (s : State) (r : Except Exn (Result Rat)) :
    (s.arch.fatal = true ∧ s.complete r = s.respond .fatal) ∨
    (s.arch.fatal = false ∧ ∃ p, r = .ok p ∧ s.complete r = s.respond (.ok p)) ∨
    (s.arch.fatal = false ∧ ∃ e, r = .error e ∧ s.complete r = s.takeException e) := by
  cases h : s.arch.fatal <;> cases r <;> simp [State.complete, h]

theorem complete_fatal {s : State} (h : s.arch.fatal = true) (r : Except Exn (Result Rat)) :
    complete s r = .next (s.respond .fatal) := by simp [complete, State.complete, h]

theorem complete_ok {s : State} (h : s.arch.fatal = false) (p : Result Rat) :
    complete s (.ok p) = .next (s.respond (.ok p)) := by simp [complete, State.complete, h]

theorem complete_error {s : State} (h : s.arch.fatal = false) (e : Exn) :
    complete s (.error e) = .next (s.takeException e) := by simp [complete, State.complete, h]

/-- Completing a command leaves the events alone and emits exactly one response. -/
theorem complete_frame (s : State) (r : Except Exn (Result Rat)) :
    (s.complete r).events = s.events ∧ ∃ a, (s.complete r).responses = s.responses ++ [a] := by
  obtain ⟨-, h⟩ | ⟨-, p, -, h⟩ | ⟨-, e, -, h⟩ := complete_cases s r <;> simp [h]

end Sys2Proof.Machine
end

