-- ==== Sys2Proof/Laws/BitField.lean ====
section
/-! SUPPORT. The BitField operations in closed form: an extract is the zero- or sign-extended slice (40_bitfield_extract.md R98,
R100), an insert replaces the bits of its field and no other (41_bitfield_insert.md R120, R122). -/

namespace Sys2Proof.Machine

/-! ## Extraction -/

theorem getUnsigned_ok (word : Word) {width lsb : Nat} (h : width + lsb ≤ 64) :
    getUnsigned word width lsb = .ok ((word.extractLsb' lsb width).setWidth 64) := by
  simp only [getUnsigned, checkDesc_ok h, shl64_eq, shr64u_eq]
  show Except.ok _ = _
  congr 1
  apply BitVec.eq_of_getLsbD_eq
  intro i hi
  simp only [BitVec.getLsbD_ushiftRight, BitVec.getLsbD_shiftLeft, BitVec.getLsbD_setWidth, BitVec.getLsbD_extractLsb']
  by_cases hw : i < width
  · have h1 : 64 - width + i < 64 := by omega
    have h2 : ¬ 64 - width + i < 64 - (width + lsb) := by omega
    have h3 : 64 - width + i - (64 - (width + lsb)) = lsb + i := by omega
    simp [h1, h2, h3, hi, hw]
  · have h1 : ¬ 64 - width + i < 64 := by omega
    simp [h1, hw]

theorem getUnsigned_error (word : Word) {width lsb : Nat} (h : 64 < width + lsb) :
    getUnsigned word width lsb = .error .contractViolation := by
  simp only [getUnsigned, checkDesc_error h]; rfl

/-- The value of an unsigned field (R98). -/
theorem toNat_unsignedField (word : Word) {width lsb : Nat} (h : width + lsb ≤ 64) :
    ((word.extractLsb' lsb width).setWidth 64).toNat = word.toNat / 2 ^ lsb % 2 ^ width := by
  have : word.toNat / 2 ^ lsb % 2 ^ width < 2 ^ 64 :=
    Nat.lt_of_lt_of_le (Nat.mod_lt _ (by positivity)) (Nat.pow_le_pow_right (by omega) (by omega))
  simp only [BitVec.toNat_setWidth, BitVec.extractLsb'_toNat, Nat.shiftRight_eq_div_pow]
  exact Nat.mod_eq_of_lt this

theorem getSigned_ok (word : Word) {width lsb : Nat} (h : width + lsb ≤ 64) :
    getSigned word width lsb = .ok ((word.extractLsb' lsb width).signExtend 64) := by
  have hu := getUnsigned_ok word h
  simp only [getUnsigned, checkDesc_ok h] at hu
  simp only [getSigned, checkDesc_ok h]
  injection hu with hu
  show Except.ok _ = _
  rw [hu]
  congr 1
  apply BitVec.eq_of_getLsbD_eq
  intro i hi
  by_cases h0 : width = 0
  · subst h0
    simp [shr64s]
  · rw [shr64s_eq _ _ (by omega), shl64_eq]
    simp only [BitVec.getLsbD_sshiftRight, BitVec.getLsbD_shiftLeft, BitVec.getLsbD_setWidth, BitVec.getLsbD_signExtend,
      BitVec.getLsbD_extractLsb', BitVec.msb_eq_getLsbD_last]
    by_cases hw : i < width
    · have h1 : 64 - width + i < 64 := by omega
      have h2 : ¬ 64 ≤ i := by omega
      simp [h1, h2, hi, hw]
    · have h1 : ¬ 64 - width + i < 64 := by omega
      have h2 : ¬ 64 ≤ i := by omega
      have h3 : ¬ 63 < 64 - width := by omega
      have h4 : 63 - (64 - width) = width - 1 := by omega
      have h5 : width - 1 < width := by omega
      have h6 : width - 1 < 64 := by omega
      simp [h1, h2, h3, h4, h5, h6, hi, hw]

theorem getSigned_error (word : Word) {width lsb : Nat} (h : 64 < width + lsb) :
    getSigned word width lsb = .error .contractViolation := by
  simp only [getSigned, checkDesc_error h]; rfl

/-! ## Insertion -/

/-- The word with the bits of the field replaced by the low bits of the value. -/
def insertField (word : Word) (width lsb : Nat) (value : Word) : Word :=
  (word &&& ~~~((BitVec.allOnes 64 >>> (64 - width)) <<< lsb)) ||| ((value.setWidth width).setWidth 64 <<< lsb)

theorem getLsbD_insertField (word value : Word) {width lsb : Nat} (h : width + lsb ≤ 64) {i : Nat} (hi : i < 64) :
    (insertField word width lsb value).getLsbD i =
      if lsb ≤ i ∧ i < lsb + width then value.getLsbD (i - lsb) else word.getLsbD i := by
  simp only [insertField, BitVec.getLsbD_or, BitVec.getLsbD_and, BitVec.getLsbD_not, BitVec.getLsbD_shiftLeft,
    BitVec.getLsbD_ushiftRight, BitVec.getLsbD_allOnes, BitVec.getLsbD_setWidth]
  by_cases h1 : lsb ≤ i
  · by_cases h2 : i < lsb + width
    · have h3 : ¬ i < lsb := by omega
      have h4 : 64 - width + (i - lsb) < 64 := by omega
      have h5 : i - lsb < width := by omega
      have h6 : i - lsb < 64 := by omega
      simp [h1, h2, h3, h4, h5, h6, hi]
    · have h3 : ¬ i < lsb := by omega
      have h4 : ¬ 64 - width + (i - lsb) < 64 := by omega
      have h5 : ¬ i - lsb < width := by omega
      simp [h2, h3, h4, h5, hi]
  · have h3 : i < lsb := by omega
    simp [h1, h3, hi]

theorem setUnsigned_ok (word value : Word) {width lsb : Nat} (h : width + lsb ≤ 64) (hv : value.toNat < 2 ^ width) :
    setUnsigned word width lsb value = .ok (insertField word width lsb value) := by
  have hf : shr64u value width = 0 := by
    have := fitsUnsigned_eq value width
    simpa [fitsUnsigned, hv] using this
  have hs : (value.setWidth width).setWidth 64 = value := by
    apply BitVec.eq_of_toNat_eq
    have := value.isLt
    simp only [BitVec.toNat_setWidth]
    rw [Nat.mod_eq_of_lt hv, Nat.mod_eq_of_lt this]
  simp only [setUnsigned, checkDesc_ok h, hf, ne_eq, not_true_eq_false, if_false, insertField, hs, shl64_eq, shr64u_eq]
  rfl

theorem setUnsigned_overflow (word value : Word) {width lsb : Nat} (h : width + lsb ≤ 64) (hv : 2 ^ width ≤ value.toNat) :
    setUnsigned word width lsb value = .error .overflow := by
  have hf : shr64u value width ≠ 0 := by
    have := fitsUnsigned_eq value width
    simpa [fitsUnsigned, Nat.not_lt.mpr hv] using this
  simp only [setUnsigned, checkDesc_ok h, hf, ne_eq, not_false_eq_true, if_true]
  rfl

theorem setUnsigned_error (word value : Word) {width lsb : Nat} (h : 64 < width + lsb) :
    setUnsigned word width lsb value = .error .contractViolation := by
  simp only [setUnsigned, checkDesc_error h]; rfl

/-- The low `width` bits of a value, as the two shifts of R122 compute them. -/
theorem lowBits_eq (value : Word) {width : Nat} (h : width ≤ 64) :
    shr64u (shl64 value (64 - width)) (64 - width) = (value.setWidth width).setWidth 64 := by
  rw [shl64_eq, shr64u_eq]
  apply BitVec.eq_of_getLsbD_eq
  intro i hi
  simp only [BitVec.getLsbD_ushiftRight, BitVec.getLsbD_shiftLeft, BitVec.getLsbD_setWidth]
  by_cases hw : i < width
  · have h1 : 64 - width + i < 64 := by omega
    simp [h1, hi, hw]
  · have h1 : ¬ 64 - width + i < 64 := by omega
    simp [h1, hw]

theorem setSigned_ok (word value : Word) {width lsb : Nat} (h : width + lsb ≤ 64) (hv : fitsSigned value width = true) :
    setSigned word width lsb value = .ok (insertField word width lsb value) := by
  have hlt : ((value.setWidth width).setWidth 64).toNat < 2 ^ width := by
    simp only [BitVec.toNat_setWidth]
    exact Nat.lt_of_le_of_lt (Nat.mod_le _ _) (Nat.mod_lt _ (by positivity))
  have hi : insertField word width lsb ((value.setWidth width).setWidth 64) = insertField word width lsb value := by
    simp only [insertField]
    congr 2
    exact congrArg _ (BitVec.setWidth_setWidth_of_le (l := 64) (value.setWidth width) (by omega) |>.trans (BitVec.setWidth_eq _))
  simp only [setSigned, checkDesc_ok h, hv, Bool.true_eq_false, if_false, lowBits_eq value (by omega : width ≤ 64)]
  show setUnsigned word width lsb _ = _
  rw [setUnsigned_ok word _ h hlt, hi]

theorem setSigned_overflow (word value : Word) {width lsb : Nat} (h : width + lsb ≤ 64) (hv : fitsSigned value width = false) :
    setSigned word width lsb value = .error .overflow := by
  simp only [setSigned, checkDesc_ok h, hv, if_true]; rfl

theorem setSigned_error (word value : Word) {width lsb : Nat} (h : 64 < width + lsb) :
    setSigned word width lsb value = .error .contractViolation := by
  simp only [setSigned, checkDesc_error h]; rfl

end Sys2Proof.Machine
end

