-- ==== Sys2Proof/Laws/Codeword.lean ====
section
/-! SUPPORT. The codeword operations in closed form (42_codeword.md R142 to R145). -/

namespace Sys2Proof.Machine

open Sys2Proof.Safety

/-- The codeword of a record that fits, field by field (R141). -/
def packed (r : Record) : Codeword :=
  r.a.setWidth 6 ++ r.b.setWidth 6 ++ r.c.setWidth 6 ++ r.d.setWidth 6 ++ r.pbAvg.setWidth 4 ++ r.prAvg.setWidth 4

theorem fitsSigned_six (v : Word) : fitsSigned v 6 = decide (-32 ≤ v.toInt ∧ v.toInt ≤ 31) := by
  simp [fitsSigned]

theorem trunc32_inserts (r : Record) :
    trunc32 (insertField (insertField (insertField (insertField (insertField (insertField 0 6 26 r.a) 6 20 r.b) 6 14 r.c) 6 8 r.d)
      4 4 r.pbAvg) 4 0 r.prAvg) = packed r := by
  apply BitVec.eq_of_getLsbD_eq
  intro i hi
  have h64 : i < 64 := by omega
  simp only [trunc32, packed, BitVec.getLsbD_setWidth, BitVec.getLsbD_append,
    getLsbD_insertField _ _ (show 6 + 26 ≤ 64 by omega) h64, getLsbD_insertField _ _ (show 6 + 20 ≤ 64 by omega) h64,
    getLsbD_insertField _ _ (show 6 + 14 ≤ 64 by omega) h64, getLsbD_insertField _ _ (show 6 + 8 ≤ 64 by omega) h64,
    getLsbD_insertField _ _ (show 4 + 4 ≤ 64 by omega) h64, getLsbD_insertField _ _ (show 4 + 0 ≤ 64 by omega) h64]
  interval_cases i <;> simp

/-- PACK on a record that fits (R142). -/
theorem pack_ok {r : Record} (h : recordFits r) : pack r = .ok (packed r) := by
  obtain ⟨ha, hb, hc, hd, hp, hq⟩ := h
  rw [← trunc32_inserts]
  simp only [pack]
  rw [setUnsigned_ok 0 r.a (by omega) (by omega)]
  simp only [bind, Except.bind]
  rw [setSigned_ok _ r.b (by omega) (by simp [fitsSigned_six, hb])]
  simp only []
  rw [setSigned_ok _ r.c (by omega) (by simp [fitsSigned_six, hc])]
  simp only []
  rw [setSigned_ok _ r.d (by omega) (by simp [fitsSigned_six, hd])]
  simp only []
  rw [setUnsigned_ok _ r.pbAvg (by omega) (by omega)]
  simp only []
  rw [setUnsigned_ok _ r.prAvg (by omega) (by omega)]
  rfl

/-- The only way an insert at one of PACK's descriptors fails is Overflow. -/
theorem setUnsigned_cases (word value : Word) {width lsb : Nat} (h : width + lsb ≤ 64) :
    (value.toNat < 2 ^ width ∧ setUnsigned word width lsb value = .ok (insertField word width lsb value)) ∨
    (2 ^ width ≤ value.toNat ∧ setUnsigned word width lsb value = .error .overflow) := by
  rcases Nat.lt_or_ge value.toNat (2 ^ width) with hv | hv
  · exact .inl ⟨hv, setUnsigned_ok _ _ h hv⟩
  · exact .inr ⟨hv, setUnsigned_overflow _ _ h hv⟩

theorem setSigned_cases (word value : Word) {width lsb : Nat} (h : width + lsb ≤ 64) :
    (fitsSigned value width = true ∧ setSigned word width lsb value = .ok (insertField word width lsb value)) ∨
    (fitsSigned value width = false ∧ setSigned word width lsb value = .error .overflow) := by
  cases hv : fitsSigned value width
  · exact .inr ⟨rfl, setSigned_overflow _ _ h hv⟩
  · exact .inl ⟨rfl, setSigned_ok _ _ h hv⟩

/-- PACK on any other record (R142). -/
theorem pack_overflow {r : Record} (h : ¬ recordFits r) : pack r = .error .overflow := by
  unfold pack
  obtain ⟨ha, e⟩ | ⟨-, e⟩ := setUnsigned_cases 0 r.a (show 6 + 26 ≤ 64 by omega) <;>
    simp only [e, bind, Except.bind]
  obtain ⟨hb, e⟩ | ⟨-, e⟩ := setSigned_cases (insertField 0 6 26 r.a) r.b (show 6 + 20 ≤ 64 by omega) <;> simp only [e]
  obtain ⟨hc, e⟩ | ⟨-, e⟩ := setSigned_cases (insertField (insertField 0 6 26 r.a) 6 20 r.b) r.c
    (show 6 + 14 ≤ 64 by omega) <;> simp only [e]
  generalize insertField (insertField (insertField 0 6 26 r.a) 6 20 r.b) 6 14 r.c = w3
  obtain ⟨hd, e⟩ | ⟨-, e⟩ := setSigned_cases w3 r.d (show 6 + 8 ≤ 64 by omega) <;> simp only [e]
  generalize insertField w3 6 8 r.d = w4
  obtain ⟨hp, e⟩ | ⟨-, e⟩ := setUnsigned_cases w4 r.pbAvg (show 4 + 4 ≤ 64 by omega) <;> simp only [e]
  generalize insertField w4 4 4 r.pbAvg = w5
  obtain ⟨hq, e⟩ | ⟨-, e⟩ := setUnsigned_cases w5 r.prAvg (show 4 + 0 ≤ 64 by omega) <;> simp only [e]
  simp only [fitsSigned_six, decide_eq_true_eq] at hb hc hd
  exact absurd ⟨by omega, hb, hc, hd, by omega, by omega⟩ h

/-- PACK answers a codeword exactly when the record fits; otherwise Overflow, and nothing else. -/
theorem pack_cases (r : Record) :
    (recordFits r ∧ pack r = .ok (packed r)) ∨ (¬ recordFits r ∧ pack r = .error .overflow) := by
  by_cases h : recordFits r
  · exact .inl ⟨h, pack_ok h⟩
  · exact .inr ⟨h, pack_overflow h⟩

/-- UNPACK, field by field (R144). -/
theorem unpack_ok (cw : Codeword) :
    unpack cw = .ok
      { a := (cw.extractLsb' 26 6).setWidth 64
        b := (cw.extractLsb' 20 6).signExtend 64
        c := (cw.extractLsb' 14 6).signExtend 64
        d := (cw.extractLsb' 8 6).signExtend 64
        pbAvg := (cw.extractLsb' 4 4).setWidth 64
        prAvg := (cw.extractLsb' 0 4).setWidth 64 } := by
  have field : ∀ w l, w + l ≤ 32 → (zext64 cw).extractLsb' l w = cw.extractLsb' l w := by
    intro w l h
    apply BitVec.eq_of_getLsbD_eq
    intro i hi
    have : l + i < 64 := by omega
    simp [zext64, hi, this]
  simp only [unpack, getUnsigned_ok (zext64 cw) (show 6 + 26 ≤ 64 by omega), getSigned_ok (zext64 cw) (show 6 + 20 ≤ 64 by omega),
    getSigned_ok (zext64 cw) (show 6 + 14 ≤ 64 by omega), getSigned_ok (zext64 cw) (show 6 + 8 ≤ 64 by omega),
    getUnsigned_ok (zext64 cw) (show 4 + 4 ≤ 64 by omega), getUnsigned_ok (zext64 cw) (show 4 + 0 ≤ 64 by omega),
    field 6 26 (by omega), field 6 20 (by omega), field 6 14 (by omega), field 6 8 (by omega), field 4 4 (by omega),
    field 4 0 (by omega)]
  rfl

/-- DESER (R145). -/
theorem deserialize_ok (b : StreamBytes) {n : Nat} (h : 4 ≤ n) :
    deserialize b n = .ok (b.b0 ++ b.b1 ++ b.b2 ++ b.b3) := by simp [deserialize, Nat.not_lt.mpr h]

theorem deserialize_incomplete (b : StreamBytes) {n : Nat} (h : n < 4) :
    deserialize b n = .error .incompleteWord := by simp [deserialize, h]

end Sys2Proof.Machine
end

