-- ==== Sys2Proof/Laws/Decode.lean ====
section
/-! SUPPORT. The opcode map and the decoder. -/

namespace Sys2Proof

theorem ofBits_bits (o : Opcode) : Opcode.ofBits? o.row.bits = some o := by cases o <;> rfl

/-- What the opcode map finds carries the opcode it was asked for. -/
theorem bits_of_ofBits {op : Byte} {o : Opcode} (h : Opcode.ofBits? op = some o) : o.row.bits = op := by
  have := List.find?_some h
  simpa using this

/-- What decoding can do: select the ports of the operation the opcode names, or refuse a reserved opcode by name. -/
theorem decode_cases (c : Command Rat) :
    (∃ o : Opcode, o.row.bits = c.op ∧ decode c = .ok (o.instr c)) ∨
    (Opcode.ofBits? c.op = none ∧ decode c = .error (.reservedOpcode c.op)) := by
  unfold decode
  cases h : Opcode.ofBits? c.op with
  | some o => exact .inl ⟨o, bits_of_ofBits h, rfl⟩
  | none => exact .inr ⟨rfl, rfl⟩

theorem opcode_instr (o : Opcode) (c : Command Rat) : (o.instr c).opcode = o := by cases o <;> rfl

/-- What the decoder answers is well-formed. -/
theorem decode_wf {c : Command Rat} {i : Instr} (h : decode c = .ok i) : i.wf = true := by
  obtain ⟨o, -, h'⟩ | ⟨-, h'⟩ := decode_cases c
  · rw [h'] at h
    obtain rfl := Except.ok.inj h
    cases o <;> simp [Opcode.instr, Instr.wf, fitsN8, fitsN3] <;> omega
  · rw [h'] at h
    cases h

end Sys2Proof
end

