-- ==== Sys2Proof/Laws/PerInstr.lean ====
section
/-! SUPPORT. Per-instruction families: a statement about each instruction as syntax, and one lemma per constructor. -/

namespace Sys2Proof.Laws.OpcodeOfEncoding

/-- The command an instruction is encoded to, over any base command, carries the opcode of R62 for that instruction, and the opcode
map finds the operation again. -/
def Statement (i : Instr) : Prop :=
  ∀ c : Command Rat, (encodeOver c i).op = i.opcode.row.bits ∧ Opcode.ofBits? (encodeOver c i).op = some i.opcode

theorem fitsu (v : Word) (w : Nat) : Statement (.fitsu v w) := fun _ => ⟨rfl, by rfl⟩
theorem fitss (v : Word) (w : Nat) : Statement (.fitss v w) := fun _ => ⟨rfl, by rfl⟩
theorem getu (x : Word) (w l : Nat) : Statement (.getu x w l) := fun _ => ⟨rfl, by rfl⟩
theorem gets (x : Word) (w l : Nat) : Statement (.gets x w l) := fun _ => ⟨rfl, by rfl⟩
theorem setu (x : Word) (w l : Nat) (v : Word) : Statement (.setu x w l v) := fun _ => ⟨rfl, by rfl⟩
theorem sets (x : Word) (w l : Nat) (v : Word) : Statement (.sets x w l v) := fun _ => ⟨rfl, by rfl⟩
theorem pack (r : Record) : Statement (.pack r) := fun _ => ⟨rfl, by rfl⟩
theorem unpack (cw : Codeword) : Statement (.unpack cw) := fun _ => ⟨rfl, by rfl⟩
theorem ser (cw : Codeword) : Statement (.ser cw) := fun _ => ⟨rfl, by rfl⟩
theorem deser (b : StreamBytes) (n : Nat) : Statement (.deser b n) := fun _ => ⟨rfl, by rfl⟩
theorem rgb2ycc (s : Triple Rat) : Statement (.rgb2ycc s) := fun _ => ⟨rfl, by rfl⟩
theorem ycc2rgb (s : Triple Rat) : Statement (.ycc2rgb s) := fun _ => ⟨rfl, by rfl⟩
theorem bfwd (b : Block Rat) : Statement (.bfwd b) := fun _ => ⟨rfl, by rfl⟩
theorem binv (r : Record) : Statement (.binv r) := fun _ => ⟨rfl, by rfl⟩
theorem cblk (b : Block Rat) : Statement (.cblk b) := fun _ => ⟨rfl, by rfl⟩
theorem dblk (b : StreamBytes) (n : Nat) : Statement (.dblk b n) := fun _ => ⟨rfl, by rfl⟩

end Sys2Proof.Laws.OpcodeOfEncoding
end

