-- ==== Sys2Proof/Laws/Real.lean ====
section
/-! SUPPORT. The real primitives over any `NUM`, and under `NUM_EXACT` (00_scope.md R8): each operation of `Num.exact` is the one of the rationals. -/

namespace Sys2Proof.Machine

@[simp] theorem exact_add (x y : Rat) : Num.exact.add x y = x + y := rfl
@[simp] theorem exact_sub (x y : Rat) : Num.exact.sub x y = x - y := rfl
@[simp] theorem exact_mul (x y : Rat) : Num.exact.mul x y = x * y := rfl
@[simp] theorem exact_divNat (x : Rat) (n : ℕ+) : Num.exact.divNat x n = x / ((n : Nat) : Rat) := rfl
@[simp] theorem exact_ofInt (i : Int) : Num.exact.ofInt i = i := rfl
@[simp] theorem exact_le (x y : Rat) : Num.exact.le x y = decide (x ≤ y) := rfl
@[simp] theorem exact_lt (x y : Rat) : Num.exact.lt x y = decide (x < y) := by simp [Num.lt, ← not_le]
@[simp] theorem exact_floorInt (x : Rat) : Num.exact.floorInt x = ⌊x⌋ := rfl
@[simp] theorem exact_zero : Num.exact.zero = 0 := rfl
@[simp] theorem exact_one : Num.exact.one = 1 := rfl
@[simp] theorem exact_half : Num.exact.half = 1 / 2 := rfl
@[simp] theorem exact_aScale : Num.exact.aScale = 511 := rfl
@[simp] theorem exact_acMin : Num.exact.acMin = -3 / 10 := rfl
@[simp] theorem exact_acMax : Num.exact.acMax = 3 / 10 := rfl
@[simp] theorem exact_acScale : Num.exact.acScale = 50 := rfl
@[simp] theorem params_num : Config.params.num = Num.exact := rfl
@[simp] theorem params_kBPr : Config.params.kBPr = 0 := rfl

theorem exact_neg (x : Rat) : neg Num.exact x = -x := by simp [neg]

/-- `clamp` between bounds in order (R17). -/
theorem exact_clamp (x : Rat) {lo hi : Rat} (h : lo ≤ hi) : clamp Num.exact x lo hi = max lo (min hi x) := by
  unfold clamp
  by_cases h1 : x < lo
  · simp [h1, max_eq_left (le_trans (min_le_right hi x) h1.le)]
  · by_cases h2 : hi < x
    · simp [h1, h2, min_eq_left h2.le, max_eq_right h]
    · simp [h1, h2, min_eq_right (not_lt.mp h2), max_eq_right (not_lt.mp h1)]

theorem exact_mean4 (p q r s : Rat) : mean4 Num.exact p q r s = (p + q + r + s) / 4 := by simp [mean4]

theorem exact_roundNearest {x : Rat} (h : 0 ≤ x) : roundNearest Num.exact x = ⌊x + 1 / 2⌋ := by
  simp [roundNearest, not_lt.mpr h]

theorem exact_truncZero (x : Rat) : truncZero Num.exact x = if x < 0 then -⌊-x⌋ else ⌊x⌋ := by
  simp [truncZero, exact_neg]

/-! ## Any `NUM` -/

/-- In the order of any `NUM`, `clamp` lands between bounds that are in order (R17). -/
theorem clamp_between {R : Type} (n : Num R) (x : R) {lo hi : R} (h : n.le lo hi = true) :
    n.le lo (clamp n x lo hi) = true ∧ n.le (clamp n x lo hi) hi = true := by
  unfold clamp Num.lt
  cases h1 : n.le lo x
  · simp [h, n.refl]
  · cases h2 : n.le x hi
    · simp [h, n.refl]
    · simp [h1, h2]

end Sys2Proof.Machine
end

