-- ==== Sys2Proof/Laws/Step.lean ====
section
/-! SUPPORT. What a step can do, said once: `exec` completes the instruction's pseudocode, and a step takes the next event. -/

namespace Sys2Proof.Machine

/-- Every meaning completes its instruction's pseudocode at the machine's parameters. -/
theorem exec_eq_complete (i : Instr) (s : State) : exec i s = complete s (perform Config.params i) := by
  cases i <;> rfl

/-- Accepting a command. -/
theorem accept_eq (c : Command Rat) (s : State) :
    accept c s = complete s (match decode c with
      | .ok i => perform Config.params i
      | .error _ => .error .contractViolation) := by
  unfold accept
  cases decode c with
  | ok i => exact exec_eq_complete i s
  | error e => rfl

theorem step_idle {s : State} (h : s.events = []) : step s = .next s := by
  simp [step, nextEvent, h]

theorem step_reset {s : State} {rest : List (Event Rat)} (h : s.events = .reset :: rest) :
    step s = .next { arch := { fatal := false }, events := rest, responses := s.responses } := by
  simp [step, nextEvent, h, State.resetCore]

theorem step_command {s : State} {c : Command Rat} {rest : List (Event Rat)} (h : s.events = .cmd c :: rest) :
    step s = accept c { s with events := rest } := by
  simp [step, nextEvent, h]

/-- What a step can do: nothing, a reset, or a command completed. -/
theorem step_cases {s t : State} (h : step s = .next t) :
    (s.events = [] ∧ t = s) ∨
    (∃ rest, s.events = .reset :: rest ∧ t = { arch := { fatal := false }, events := rest, responses := s.responses }) ∨
    (∃ c rest r, s.events = .cmd c :: rest ∧ t = ({ s with events := rest } : State).complete r) := by
  rcases he : s.events with _ | ⟨_ | _, rest⟩
  · rw [step_idle he] at h
    exact .inl ⟨rfl, (Host.Outcome.next.inj h).symm⟩
  · rename_i c
    rw [step_command he, accept_eq] at h
    exact .inr (.inr ⟨c, rest, _, rfl, (Host.Outcome.next.inj h).symm⟩)
  · rw [step_reset he] at h
    exact .inr (.inl ⟨rest, rfl, (Host.Outcome.next.inj h).symm⟩)

/-! ## The step of the spec -/

/-- The rule of an opcode on a command's ports is the pseudocode of the instruction those ports give. -/
theorem runRule_eq_perform (p : Params Rat) (o : Opcode) (c : Command Rat) : runRule p o c = perform p (o.instr c) := by
  cases o <;> rfl

/-- A contract violation read off the ports is one of the instruction they decode to, or a reserved opcode. -/
theorem commandViolates_eq (c : Command Rat) :
    Safety.commandViolates c = match decode c with
      | .ok i => Safety.violates i
      | .error _ => true := by
  unfold Safety.commandViolates decode
  cases Opcode.ofBits? c.op with
  | none => rfl
  | some o => cases o <;> rfl

end Sys2Proof.Machine
end

