-- ==== Sys2Proof/Tests/Slice0.lean ====
section
/-! SUPPORT. The model's own tests. Expected values come from the spec: 95_test_vectors.md (the section or the vector's name is in the
comment), or the examples of the cited rule. The last part shows, for each statement that has hypotheses, concrete states
and operands that meet them, at the boundaries of their ranges. -/

namespace Sys2Proof.Tests

open Sys2Proof Sys2Proof.Machine Sys2Proof.Safety Sys2Proof.Claims

/-! ## Helpers -/

/-- The stand-in lookup `CHROMA_TEST` (95_test_vectors.md section 0): it is not the hardware's table. -/
def chromaOfIndexTest (i : Word) : Rat := if i.toNat < 16 then (2 * (i.toNat : Rat) - 15) / 30 else 1 / 2

def distance (x y : Rat) : Rat := if x < y then y - x else x - y

def indexOfChromaTest (x : Rat) : Word :=
  (List.range 16).foldl (fun best i =>
    if distance (chromaOfIndexTest (BitVec.ofNat 64 i)) x < distance (chromaOfIndexTest best) x then BitVec.ofNat 64 i
    else best) 0

/-- `NUM_EXACT`, `CHROMA_TEST`, `K_B_PR = 0`. -/
def testParams : Params Rat := ⟨Num.exact, indexOfChromaTest, chromaOfIndexTest, 0⟩

/-- The response to one instruction from `FATAL = 0`, through the encoder and the decoder. -/
def answer (i : Instr) : Response Rat := (coreStep testParams ⟨false⟩ (encode i)).2

/-- A state with the given `FATAL` bit and one command waiting. -/
def withCommand (fatal : Bool) (c : Command Rat) : State := ⟨⟨fatal⟩, [.cmd c], []⟩

/-- `FATAL` and the last response after one step. -/
def after (s : State) : Option (Bool × Option (Response Rat)) :=
  match step s with
  | .next t => some (t.arch.fatal, t.responses.getLast?)
  | .fault _ => none
  | .refused _ => none

/-- A `NUM` over another carrier: fixed point, the integer `k` standing for `k / 1000000` (R8: other instantiations). -/
def fixedPoint : Num Int where
  add x y := x + y
  sub x y := x - y
  mul x y := x * y / 1000000
  divNat x n := x / ((n : Nat) : Int)
  ofInt i := i * 1000000
  floorInt x := x / 1000000
  le x y := decide (x ≤ y)
  refl := by simp
  antisymm _ _ h k := by simp only [decide_eq_true_eq] at h k; omega
  trans _ _ _ h k := by simp only [decide_eq_true_eq] at h k ⊢; omega
  total _ _ := by simp only [decide_eq_true_eq]; omega
  kYR := 299000
  kYG := 587000
  kYB := 114000
  kPbR := -168736
  kPbG := 331264
  kPbB := 500000
  kPrR := 500000
  kPrG := 418688
  kPrB := 81312
  kRPr := 1402000
  kGPb := 344136
  kGPr := 714136
  kBPb := 1772000
  zero := 0
  one := 1000000
  half := 500000
  aScale := 511000000
  acMin := -300000
  acMax := 300000
  acScale := 50000000

def fixedPointParams : Params Int := ⟨fixedPoint, fun _ => 0, fun _ => 0, 0⟩

def all64 : Word := 0xFFFFFFFFFFFFFFFF
def grey (t : Rat) : Block Rat := ⟨⟨t, t, t⟩, ⟨t, t, t⟩, ⟨t, t, t⟩, ⟨t, t, t⟩⟩

/-! ## WellFormed: an ill-formed term for each check -/

theorem smoke_width_fitsu : (Instr.fitsu 0 256).wf = false := by decide
theorem smoke_width_fitss : (Instr.fitss 0 256).wf = false := by decide
theorem smoke_width_getu : (Instr.getu 0 256 0).wf = false := by decide
theorem smoke_lsb_getu : (Instr.getu 0 0 256).wf = false := by decide
theorem smoke_width_gets : (Instr.gets 0 256 0).wf = false := by decide
theorem smoke_lsb_gets : (Instr.gets 0 0 256).wf = false := by decide
theorem smoke_width_setu : (Instr.setu 0 256 0 0).wf = false := by decide
theorem smoke_lsb_setu : (Instr.setu 0 0 256 0).wf = false := by decide
theorem smoke_width_sets : (Instr.sets 0 256 0 0).wf = false := by decide
theorem smoke_lsb_sets : (Instr.sets 0 0 256 0).wf = false := by decide
theorem smoke_nbytes_deser : (Instr.deser .zero 8).wf = false := by decide
theorem smoke_nbytes_dblk : (Instr.dblk .zero 8).wf = false := by decide
theorem smoke_illegal_descriptor_is_wf : (Instr.getu 0 200 100).wf = true := by decide

/-! ## Decoding: each opcode written out bit by bit from R62 -/

theorem decode_fitsu : decodeTableWord 8 0b00000000 = some (.fitsu 0 0) := by decide
theorem decode_fitss : decodeTableWord 8 0b00000001 = some (.fitss 0 0) := by decide
theorem decode_getu : decodeTableWord 8 0b00000010 = some (.getu 0 0 0) := by decide
theorem decode_gets : decodeTableWord 8 0b00000011 = some (.gets 0 0 0) := by decide
theorem decode_setu : decodeTableWord 8 0b00000100 = some (.setu 0 0 0 0) := by decide
theorem decode_sets : decodeTableWord 8 0b00000101 = some (.sets 0 0 0 0) := by decide
theorem decode_pack : decodeTableWord 8 0b00010000 = some (.pack .zero) := by decide
theorem decode_unpack : decodeTableWord 8 0b00010001 = some (.unpack 0) := by decide
theorem decode_ser : decodeTableWord 8 0b00010010 = some (.ser 0) := by decide
theorem decode_deser : decodeTableWord 8 0b00010011 = some (.deser .zero 0) := by decide
theorem decode_rgb2ycc : decodeTableWord 8 0b00100000 = some (.rgb2ycc .zero) := by decide
theorem decode_ycc2rgb : decodeTableWord 8 0b00100001 = some (.ycc2rgb .zero) := by decide
theorem decode_bfwd : decodeTableWord 8 0b00110000 = some (.bfwd .zero) := by decide
theorem decode_binv : decodeTableWord 8 0b00110001 = some (.binv .zero) := by decide
theorem decode_cblk : decodeTableWord 8 0b01000000 = some (.cblk .zero) := by decide
theorem decode_dblk : decodeTableWord 8 0b01000001 = some (.dblk .zero 0) := by decide
theorem decode_reserved_06 : decodeTableWord 8 0b00000110 = none := by decide
theorem decode_reserved_ff : decodeTableWord 8 0b11111111 = none := by decide

/-- The ports of command 5 of program P1 land in the operands of their names. -/
theorem decode_operands :
    decode { Command.ofOpcode 0x04 with word := 0x5713F900, width := 4, lsb := 3, value := 8 } =
      .ok (.setu 0x5713F900 4 3 8) := by decide

/-! ## BitField (sections 2 and 3) -/

theorem test_fitsu_64_6 : answer (.fitsu 64 6) = .ok (.flag false) := by decide
theorem test_fitsu_all_64 : answer (.fitsu all64 64) = .ok (.flag true) := by decide
theorem test_fitss_minus4_3 : answer (.fitss 0xFFFFFFFFFFFFFFFC 3) = .ok (.flag true) := by decide
theorem test_fitss_0_0 : answer (.fitss 0 0) = .ok (.flag false) := by decide
theorem test_getu_S7 : answer (.getu 0x3F4 6 2) = .ok (.word 0x3D) := by decide
theorem test_getu_no_wrap : answer (.getu 0x123456789ABCDEF0 64 192) = .fatal := by decide
theorem test_gets_minus3 : answer (.gets 0x3F4 6 2) = .ok (.word 0xFFFFFFFFFFFFFFFD) := by decide
theorem test_gets_width0_lsb64 : answer (.gets all64 0 64) = .ok (.word 0) := by decide
theorem test_setu_top : answer (.setu 0x123456789ABCDEF0 16 48 0xBEEF) = .ok (.word 0xBEEF56789ABCDEF0) := by decide
theorem test_setu_fatal_wins : answer (.setu 0 32 33 0x10000000000) = .fatal := by decide
theorem test_sets_S8 : answer (.sets 0x20 3 3 0xFFFFFFFFFFFFFFFC) = .ok (.word 0x20) := by decide
theorem test_sets_overwrite : answer (.sets 0x5713F987 6 20 3) = .ok (.word 0x5433F987) := by decide

/-! ## Codeword (section 4) -/

theorem test_pack : answer (.pack ⟨21, 0xFFFFFFFFFFFFFFF1, 15, 0xFFFFFFFFFFFFFFF9, 8, 7⟩) = .ok (.cw 0x5713F987) := by decide
theorem test_pack_not_narrowed : answer (.pack ⟨0x100000000, 0, 0, 0, 0, 0⟩) = .overflow := by decide
theorem test_unpack :
    answer (.unpack 0xDEADBEEF) = .ok (.record ⟨55, -22, -10, -2, 14, 15⟩) := by decide
theorem test_ser_S6 : answer (.ser 0x01020304) = .ok (.bytes ⟨1, 2, 3, 4⟩) := by decide
theorem test_deser : answer (.deser ⟨0xDE, 0xAD, 0xBE, 0xEF⟩ 7) = .ok (.cw 0xDEADBEEF) := by decide
theorem test_deser_short : answer (.deser ⟨1, 2, 3, 0⟩ 3) = .incomplete := by decide

/-! ## ColorTransform, BlockTransform (sections 5 and 6) -/

theorem test_rgb2ycc : answer (.rgb2ycc ⟨1 / 5, 2 / 5, 3 / 5⟩) = .ok (.sample ⟨0.363, 0.1337472, -0.1162624⟩) := by
  decide +kernel
theorem test_ycc2rgb : answer (.ycc2rgb ⟨3 / 10, 1 / 10, -1 / 5⟩) = .ok (.sample ⟨0.0196, 0.4084136, 0.4772⟩) := by
  decide +kernel
/-- B3. -/
theorem test_bfwd_B3 :
    answer (.bfwd ⟨⟨0.05, 0.10, -0.10⟩, ⟨0.07, 0.12, -0.08⟩, ⟨0.11, 0.08, -0.12⟩, ⟨0.17, 0.10, -0.10⟩⟩) =
      .ok (.record ⟨51, 2, 1, 0, 9, 6⟩) := by decide +kernel
/-- B6: the signs of the recovered `c` and `d` rows. -/
theorem test_bfwd_B6 :
    answer (.bfwd ⟨⟨1, 0, 0⟩, ⟨0, 0, 0⟩, ⟨0, 0, 0⟩, ⟨0, 0, 0⟩⟩) = .ok (.record ⟨128, -12, -12, 12, 7, 7⟩) := by decide +kernel
/-- I5: the integer clamp. -/
theorem test_binv_I5 :
    answer (.binv ⟨63, 31, -32, 20, 3, 12⟩) =
      .ok (.block ⟨⟨309 / 730, -3 / 10, 3 / 10⟩, ⟨-567 / 730, -3 / 10, 3 / 10⟩, ⟨309 / 730, -3 / 10, 3 / 10⟩,
        ⟨309 / 730, -3 / 10, 3 / 10⟩⟩) := by decide +kernel
/-- The tie of section 6: 127/1022 scales to 63.5. -/
theorem test_quantA_tie : quantA Num.exact (127 / 1022) = 64 := by decide +kernel
theorem test_quantAc_truncates : quantAc Num.exact (-0.29) = -14 := by decide +kernel

/-! ## Pipeline (section 7) -/

/-- K6. -/
theorem test_cblk_K6 :
    answer (.cblk ⟨⟨0.2, 0.02, 0.02⟩, ⟨0.2, 0.02, 0.02⟩, ⟨0.1, 0.02, 0.02⟩, ⟨0.1, 0.02, 0.02⟩⟩) =
      .ok (.bytes ⟨0x78, 0x00, 0x00, 0x78⟩) := by decide +kernel
/-- K3. -/
theorem test_cblk_K3 : answer (.cblk (grey (1 / 8))) = .overflow := by decide +kernel
/-- D3: both clamps act. -/
theorem test_dblk_D3 :
    answer (.dblk ⟨0xFF, 0xFF, 0xFF, 0xFF⟩ 4) =
      .ok (.block ⟨⟨61633 / 73000, 0, 1⟩, ⟨61633 / 73000, 0, 1⟩, ⟨61633 / 73000, 0, 1⟩, ⟨55793 / 73000, 0, 34649 / 36500⟩⟩) := by
  decide +kernel
/-- D6. -/
theorem test_dblk_D6 : answer (.dblk ⟨0xE0, 0, 0, 0x77⟩ 3) = .incomplete := by decide +kernel

/-! ## Another carrier (R8) -/

/-- R171's example `RGB2YCC (1, 0, 0)`, in millionths. -/
theorem test_rgb2ycc_fixedPoint : rgbToYcc fixedPoint ⟨1000000, 0, 0⟩ = ⟨299000, -168736, 500000⟩ := by decide
/-- R189: `quant_ac` saturates at 15 from 0.3 up. -/
theorem test_quantAc_fixedPoint : quantAc fixedPoint 400000 = 15 := by decide

/-! ## Exceptions, the FATAL bit, steps (section 8) -/

/-- X1. -/
theorem test_X1 : after (withCommand false (encode (.getu 0x123456789ABCDEF0 65 0))) = some (true, some .fatal) := by decide
/-- X2. -/
theorem test_X2 : after (withCommand true (encode (.getu 0x3F4 6 2))) = some (true, some .fatal) := by decide
/-- X4. -/
theorem test_X4 : after ⟨⟨true⟩, [.reset], []⟩ = some (false, none) := by decide
/-- X5. -/
theorem test_X5 : after (withCommand false (Command.ofOpcode 0x06)) = some (true, some .fatal) := by decide
/-- X7. -/
theorem test_X7 : after (withCommand false (encode (.setu 0 6 2 64))) = some (false, some .overflow) := by decide
/-- X14: garbage on the ports outside the format. -/
theorem test_X14 :
    after (withCommand false { encode (.pack .zero) with width := 255, lsb := 255, bytes := ⟨1, 2, 3, 4⟩ }) =
      some (false, some (.ok (.cw 0))) := by decide
/-- The host's table word is fetched and run first after reset. -/
theorem test_fetch_word : after (State.reset.withFetchWord 8 0x12) = some (false, some (.ok (.bytes .zero))) := by decide
theorem test_idle : after State.reset = some (false, none) := by decide

/-! ## The written form (R69) -/

theorem test_assemble_alias : assemble "get_unsigned" [.int 0x3F4, .int 6, .int 2] = some (.getu 0x3F4 6 2) := by decide +kernel
theorem test_assemble_minus : assemble "SETU" [.int 0, .int 6, .int 2, .int (-1)] = none := by decide +kernel
theorem test_assemble_short_lanes :
    assemble "DBLK" [.bytes [0xF4, 0, 0], .int 3] = some (.dblk ⟨0xF4, 0, 0, 0⟩ 3) := by decide +kernel
theorem test_text : (Instr.sets 0x20 3 3 (-4)).text = "SETS 32, 3, 3, -4" := by decide +kernel
theorem test_response_text : (answer (.getu 0x3F4 6 2)).text = "=> OK word=61" := by decide +kernel

/-! ## Witnesses: the hypotheses of each statement are met, at the boundaries of their ranges -/

/-- FITSU, FITSS: a running state, the widest legal width and the narrowest illegal one; the range clause at both ends of 1..64. -/
theorem witness_range_tests :
    State.reset.arch.fatal = false ∧ 64 ≤ 64 ∧ 64 < 65 ∧ 1 ≤ 1 ∧ 1 ≤ 64 ∧ inSignedRange (-1) 1 ∧ ¬ inSignedRange 1 1 := by decide

/-- GETU, GETS, RangeTestsAndExtracts: the longest and the highest legal field, and the first illegal sums. -/
theorem witness_extracts :
    State.reset.arch.fatal = false ∧ 64 + 0 ≤ 64 ∧ 0 + 64 ≤ 64 ∧ 64 < 64 + 1 ∧ 64 < 0 + 65 ∧ ¬ (65 ≤ 64 ∧ 65 + 0 ≤ 64) := by decide

/-- SETU: values at both ends of the range of widths 0, 6 and 64. -/
theorem witness_setu :
    State.reset.arch.fatal = false ∧ (0 : Word).toNat < 2 ^ 0 ∧ (63 : Word).toNat < 2 ^ 6 ∧ 2 ^ 6 ≤ (64 : Word).toNat ∧
    2 ^ 0 ≤ (1 : Word).toNat ∧ all64.toNat < 2 ^ 64 ∧ 32 + 33 > 64 := by decide

/-- SETS: values at both ends of the range of width 6, width 0, and an illegal descriptor. -/
theorem witness_sets :
    State.reset.arch.fatal = false ∧ inSignedRange (-32 : Word).toInt 6 ∧ inSignedRange (31 : Word).toInt 6 ∧
    ¬ inSignedRange (32 : Word).toInt 6 ∧ ¬ inSignedRange (-33 : Word).toInt 6 ∧ ¬ inSignedRange (0 : Word).toInt 0 ∧
    60 + 5 > 64 := by decide

/-- The shift primitives: counts 0, 63 and 64. -/
theorem witness_shifts : 0 ≤ 64 ∧ 63 < 64 ∧ 64 ≤ 64 := by decide

/-- The laws of the extracts and the inserts: two adjacent fields, an empty field inside another, a value that fits. -/
theorem witness_field_laws :
    32 + 32 + 0 ≤ 64 ∧ 6 + 58 ≤ 64 ∧ 6 + 52 ≤ 64 ∧ (63 : Word).toNat < 2 ^ 6 ∧ (52 + 6 ≤ 58) ∧
    (∃ n1 n2 l1 l2 : Nat, n1 + l1 ≤ 64 ∧ n2 + l2 ≤ 64 ∧ n1 = 0 ∧ l2 < l1 ∧ l1 < l2 + n2) ∧
    inSignedRange (-32 : Word).toInt 6 ∧ 0 ≤ (31 : Word).toInt ∧ (31 : Word).toInt ≤ 2 ^ (6 - 1) - 1 ∧ 63 < 64 ∧ 1 ≤ 1 :=
  ⟨by decide, by decide, by decide, by decide, by decide, ⟨0, 6, 3, 1, by decide⟩, by decide, by decide, by decide, by decide,
    by decide⟩

/-- PACK and what rests on it: records at both ends of every field's range. -/
theorem witness_pack :
    State.reset.arch.fatal = false ∧ recordFits ⟨63, -32, 31, -32, 15, 15⟩ ∧ recordFits Record.zero :=
  ⟨rfl, by decide, by decide⟩

/-- One record just outside each field's range. -/
theorem witness_pack_overflow :
    ∀ r ∈ ([⟨64, 0, 0, 0, 0, 0⟩, ⟨0, 32, 0, 0, 0, 0⟩, ⟨0, 0, -33, 0, 0, 0⟩, ⟨0, 0, 0, 32, 0, 0⟩, ⟨0, 0, 0, 0, 16, 0⟩,
      ⟨0, 0, 0, 0, 0, 16⟩] : List Record), ¬ recordFits r := by decide

/-- PackEqualsItsSixInsertsInAnyOrder: the reverse order (program P1). -/
theorem witness_insert_order : (insertCalls Record.zero).reverse.Perm (insertCalls Record.zero) := List.reverse_perm _

/-- EachStreamByteHoldsItsPartOfTheFields. -/
theorem witness_packs : pack ⟨1, 2, 3, 4, 5, 6⟩ = .ok 0x0420C456 := by decide

/-- DESER, DBLK: the first complete and the last incomplete count. -/
theorem witness_nbytes : State.reset.arch.fatal = false ∧ 4 ≤ 4 ∧ 4 ≤ 7 ∧ 3 < 4 ∧ 0 < 4 := by decide

/-- The statements whose one hypothesis is `FATAL = 0`: UNPACK, SER, RGB2YCC, YCC2RGB, BFWD, BINV, CBLK. -/
theorem witness_running : State.reset.arch.fatal = false := rfl

/-- The colour ranges: both corners. -/
theorem witness_colour : (0 : Rat) ≤ 0 ∧ (0 : Rat) ≤ 1 ∧ (1 : Rat) ≤ 1 := by norm_num

/-- Rounding and the quantizers: arguments on each side of every threshold. -/
theorem witness_quantizers :
    (0 : Rat) ≤ 0 ∧ (-1 : Rat) < 0 ∧ |(roundNearest Num.exact (5 / 2) : Rat) - 5 / 2| = 1 / 2 ∧ (0 : Rat) < 1 / 1022 ∧
    (1021 / 1022 : Rat) ≤ 1 ∧ (0.3 : Rat) ≤ 0.3 ∧ (-0.3 : Rat) ≤ -0.3 ∧ |(0 : Rat)| < 0.02 := by
  have h : roundNearest Num.exact (5 / 2) = 3 := by decide +kernel
  rw [h]
  norm_num

/-- QuantizationErrorIsWithinItsBounds: the ends of the ranges, one value beyond, and a block with raw `b = 0.3`. -/
theorem witness_quantization_error :
    (0 : Rat) ≤ 1 ∧ (1 : Rat) ≤ 1 ∧ |(0.3 : Rat)| ≤ 0.3 ∧ (0.3 : Rat) < |(0.5 : Rat)| ∧ testParams.num = Num.exact ∧
    (let k := butterfly Num.exact (luma ⟨⟨0, 0, 0⟩, ⟨0, 0, 0⟩, ⟨0.6, 0, 0⟩, ⟨0.6, 0, 0⟩⟩)
     0 ≤ k.q1 ∧ k.q1 ≤ 1 ∧ |k.q2| ≤ 0.3 ∧ |k.q3| ≤ 0.3 ∧ |k.q4| ≤ 0.3) := by
  refine ⟨by norm_num, by norm_num, by norm_num [abs_of_pos], by norm_num [abs_of_pos], rfl, ?_⟩
  norm_num [butterfly, luma, neg, Num.exact, abs_of_pos]

/-- DblkOutputsAreInTheUnitInterval (vector D1). -/
theorem witness_dblk_output :
    testParams.num = Num.exact ∧
    dblk testParams ⟨0, 0, 0, 0x77⟩ 4 =
      .ok ⟨⟨0, 33071 / 937500, 0⟩, ⟨0, 33071 / 937500, 0⟩, ⟨0, 33071 / 937500, 0⟩, ⟨0, 33071 / 937500, 0⟩⟩ :=
  ⟨rfl, by decide +kernel⟩

/-- DblkOutputsAreInTheUnitInterval for another `NUM`: fixed point. -/
theorem witness_dblk_output_fixedPoint :
    fixedPointParams.num.le fixedPointParams.num.zero fixedPointParams.num.one = true ∧
    dblk fixedPointParams .zero 4 = .ok ⟨⟨0, 0, 0⟩, ⟨0, 0, 0⟩, ⟨0, 0, 0⟩, ⟨0, 0, 0⟩⟩ := by decide

/-- BrightBlocksOverflow: the first mean luma that overflows. -/
theorem witness_bright :
    testParams.num = Num.exact ∧ State.reset.arch.fatal = false ∧
    (127 / 1022 : Rat) ≤ (127 / 1022 + 127 / 1022 + 127 / 1022 + 127 / 1022) / 4 ∧ (127 / 1022 : Rat) ≤ 127 / 1022 :=
  ⟨rfl, rfl, by norm_num, le_refl _⟩

/-- BrokenContracts, ContractViolationComesBeforeOverflow: an instruction that breaks its contract and would overflow too, one that
does not break it, and a reserved opcode. -/
theorem witness_contracts :
    State.reset.arch.fatal = false ∧ violates (.setu 0 32 33 0x10000000000) = true ∧ violates (.setu 0 32 32 0) = false ∧
    64 < 32 + 33 ∧ 2 ^ 32 ≤ (0x10000000000 : Word).toNat ∧ ¬ inSignedRange (0x4000000000000000 : Word).toInt 60 ∧
    64 < 60 + 5 ∧ Opcode.ofBits? (Command.ofOpcode 0x06).op = none := by decide

/-- EachExceptionHasItsResponseAndEffect: each of the three is raised. -/
theorem witness_exceptions :
    perform Config.params (.getu 0 65 0) = .error .contractViolation ∧
    perform Config.params (.setu 0 6 2 64) = .error .overflow ∧
    perform Config.params (.deser ⟨1, 2, 3, 4⟩ 3) = .error .incompleteWord := by decide

/-- ReservedOpcodes, FatalGate, StepExecutes, ResetClears, MachineStepRefines: states with the events they speak of. -/
theorem witness_events :
    (withCommand false (Command.ofOpcode 0x06)).events = .cmd (Command.ofOpcode 0x06) :: [] ∧
    (Command.ofOpcode 0x06).op ∉
      ([0x00, 0x01, 0x02, 0x03, 0x04, 0x05, 0x10, 0x11, 0x12, 0x13, 0x20, 0x21, 0x30, 0x31, 0x40, 0x41] : List Byte) ∧
    (withCommand true (encode (.ser 0))).arch.fatal = true ∧
    (withCommand false (encode (.ser 0))).arch.fatal = false ∧ decode (encode (.ser 0)) = .ok (.ser 0) ∧
    (⟨⟨true⟩, [.reset], []⟩ : State).events = .reset :: [] ∧ State.reset.events = [] := by decide

/-- FatalIsSetOnly, EveryStepKeeps: a step that sets the bit, and a state in which the invariant holds with the bit set. -/
theorem witness_fatal_step :
    step (withCommand false (Command.ofOpcode 0x06)) = .next ⟨⟨true⟩, [], [.fatal]⟩ ∧
    step ⟨⟨true⟩, [.reset], [.fatal]⟩ = .next ⟨⟨false⟩, [], [.fatal]⟩ ∧ FatalWasReported ⟨⟨true⟩, [.reset], [.fatal]⟩ :=
  ⟨rfl, rfl, fun _ => rfl⟩

/-- RunsReportFatal: a safe run and one that is not. -/
theorem witness_runs :
    safeRun [.cmd (encode (.ser 0)), .reset] = true ∧ safeRun [.cmd (Command.ofOpcode 0x06)] = false := by decide

/-- ResponsesDependOnTheirOwnCommandAlone, CommandsOtherThanViolationsAreIdempotent: commands not answered FATAL. -/
theorem witness_non_fatal :
    (coreStep testParams ⟨false⟩ (encode (.setu 0 6 2 64))).2 ≠ .fatal ∧
    (∀ c ∈ [encode (.ser 0), encode (.deser .zero 0)], commandViolates c = false) := by decide

/-- DecodeOfEncode, EncodeOfDecode, Assembly, Formats: the largest operands the ports admit, and two commands that differ outside
the format. -/
theorem witness_encoding :
    (Instr.setu all64 255 255 all64).wf = true ∧ (Instr.dblk .zero 7).wf = true ∧
    decode (encode (.setu all64 255 255 all64)) = .ok (.setu all64 255 255 all64) ∧
    (encode (.ser 5)).op = ({ encode (.ser 5) with width := 9 } : Command Rat).op ∧
    agreeOn .cw (encode (.ser 5)) { encode (.ser 5) with width := 9 } ∧
    (coreStep testParams ⟨false⟩ (encode (.ser 0))).2 = .ok (.bytes .zero) ∧ (⟨true⟩ : ArchState).fatal = true :=
  ⟨by decide, by decide, by decide, by decide, rfl, by decide, by decide⟩

/-- ExceptionsHaveExactlyTheirCauses: each cause occurs. -/
theorem witness_causes :
    testParams.num = Num.exact ∧ overflows testParams (.sets 0 0 0 0) ∧ overflows testParams (.pack ⟨64, 0, 0, 0, 0, 0⟩) ∧
    overflows testParams (.cblk (grey (1 / 8))) ∧ incomplete (.dblk .zero 3) ∧ Opcode.ofBits? 0xFF = none := by
  refine ⟨rfl, ⟨by decide, .inl rfl⟩, .inl (by decide), .inl ?_, by show 3 < 4; decide, by decide⟩
  decide +kernel

end Sys2Proof.Tests
end

/-! # The state family (10_state.md)

Every statement of this family is about who writes `FATAL` and how responses are emitted. Two facts carry them: a command raises
ContractViolation exactly when `commandViolates` holds of it (60_exceptions.md R231), and the machine's step is the run of R31 over
the first event. -/

section

namespace Sys2Proof.Machine

open Sys2Proof.Safety

variable {R : Type}

/-! ## Which pseudocode raises ContractViolation (R231) -/

theorem map_eq_error_iff {α β : Type} {f : α → β} {x : Except Exn α} {e : Exn} : x.map f = .error e ↔ x = .error e := by
  cases x <;> simp [Except.map]

theorem legalDescriptor_eq_false_iff {width lsb : Nat} : legalDescriptor width lsb = false ↔ 64 < width + lsb := by
  simp only [legalDescriptor, decide_eq_false_iff_not]
  omega

theorem checkWidth_bind_pure_violation_iff {α : Type} {width : Nat} (x : α) :
    (checkWidth width >>= fun _ => pure x) = Except.error Exn.contractViolation ↔ 64 < width := by
  rcases Nat.lt_or_ge 64 width with h | h
  · rw [checkWidth_error h]
    exact iff_of_true rfl h
  · rw [checkWidth_ok h]
    exact iff_of_false nofun (by omega)

theorem opFitsu_violation_iff {value : Word} {width : Nat} :
    opFitsu (R := R) value width = .error .contractViolation ↔ 64 < width :=
  checkWidth_bind_pure_violation_iff _

theorem opFitss_violation_iff {value : Word} {width : Nat} :
    opFitss (R := R) value width = .error .contractViolation ↔ 64 < width :=
  checkWidth_bind_pure_violation_iff _

/-- An operation that checks its descriptor first, and raises nothing but Overflow after it (R94, R119). -/
theorem violation_iff_of_desc {x : Except Exn Word} {width lsb : Nat}
    (illegal : 64 < width + lsb → x = .error .contractViolation)
    (legal : width + lsb ≤ 64 → x ≠ .error .contractViolation) :
    x = .error .contractViolation ↔ legalDescriptor width lsb = false := by
  rw [legalDescriptor_eq_false_iff]
  exact ⟨fun hx => Nat.lt_of_not_le fun h => legal h hx, illegal⟩

theorem getUnsigned_violation_iff {word : Word} {width lsb : Nat} :
    getUnsigned word width lsb = .error .contractViolation ↔ legalDescriptor width lsb = false :=
  violation_iff_of_desc (getUnsigned_error word) fun h => by simp [getUnsigned_ok word h]

theorem getSigned_violation_iff {word : Word} {width lsb : Nat} :
    getSigned word width lsb = .error .contractViolation ↔ legalDescriptor width lsb = false :=
  violation_iff_of_desc (getSigned_error word) fun h => by simp [getSigned_ok word h]

theorem setUnsigned_violation_iff {word value : Word} {width lsb : Nat} :
    setUnsigned word width lsb value = .error .contractViolation ↔ legalDescriptor width lsb = false :=
  violation_iff_of_desc (setUnsigned_error word value) fun h => by
    obtain ⟨-, e⟩ | ⟨-, e⟩ := setUnsigned_cases word value h <;> simp [e]

theorem setSigned_violation_iff {word value : Word} {width lsb : Nat} :
    setSigned word width lsb value = .error .contractViolation ↔ legalDescriptor width lsb = false :=
  violation_iff_of_desc (setSigned_error word value) fun h => by
    obtain ⟨-, e⟩ | ⟨-, e⟩ := setSigned_cases word value h <;> simp [e]

theorem pack_ne_violation (r : Record) : pack r ≠ .error .contractViolation := by
  obtain ⟨-, e⟩ | ⟨-, e⟩ := pack_cases r <;> simp [e]

theorem unpack_ne_violation (cw : Codeword) : unpack cw ≠ .error .contractViolation := by
  simp [unpack_ok]

theorem deserialize_ne_violation (b : StreamBytes) (n : Nat) : deserialize b n ≠ .error .contractViolation := by
  rcases Nat.lt_or_ge n 4 with h | h
  · simp [deserialize_incomplete b h]
  · simp [deserialize_ok b h]

/-- CBLK raises what its PACK raises (45_pipeline.md R215). -/
theorem cblk_ne_violation (p : Params R) (b : Block R) : cblk p b ≠ .error .contractViolation := by
  obtain ⟨-, e⟩ | ⟨-, e⟩ := pack_cases (bfwd p (mapBlock (rgbToYcc p.num) b)) <;>
    simp [cblk, e, bind, Except.bind, pure, Except.pure]

/-- DBLK raises what its DESER raises (45_pipeline.md R216). -/
theorem dblk_ne_violation (p : Params R) (b : StreamBytes) (n : Nat) : dblk p b n ≠ .error .contractViolation := by
  rcases Nat.lt_or_ge n 4 with h | h
  · simp [dblk, deserialize_incomplete b h, bind, Except.bind]
  · simp [dblk, deserialize_ok b h, unpack_ok, bind, Except.bind, pure, Except.pure]

/-! ## The outcome of a command before the FATAL gate -/

/-- What the pseudocode of a command gives, a reserved opcode raising ContractViolation (R64, R236); the FATAL gate comes
before it. -/
def commandOutcome (p : Params R) (c : Command R) : Except Exn (Result R) :=
  match Opcode.ofBits? c.op with
  | none => .error .contractViolation
  | some o => runRule p o c

theorem commandOutcome_reserved (p : Params R) {c : Command R} (h : Opcode.ofBits? c.op = none) :
    commandOutcome p c = .error .contractViolation := by
  simp [commandOutcome, h]

theorem commandOutcome_of_opcode (p : Params R) {c : Command R} {o : Opcode} (h : Opcode.ofBits? c.op = some o) :
    commandOutcome p c = runRule p o c := by
  simp [commandOutcome, h]

/-- The first two rows of R231's table: a command raises ContractViolation exactly when it breaks a contract. -/
theorem commandOutcome_violation_iff (p : Params R) (c : Command R) :
    commandOutcome p c = .error .contractViolation ↔ commandViolates c = true := by
  cases h : Opcode.ofBits? c.op with
  | none => simp [commandOutcome_reserved p h, commandViolates, h]
  | some o =>
    rw [commandOutcome_of_opcode p h]
    simp only [commandViolates, h]
    cases o with
    | fitsu => simpa [runRule] using opFitsu_violation_iff
    | fitss => simpa [runRule] using opFitss_violation_iff
    | getu => simpa [runRule, opGetu, map_eq_error_iff] using getUnsigned_violation_iff
    | gets => simpa [runRule, opGets, map_eq_error_iff] using getSigned_violation_iff
    | setu => simpa [runRule, opSetu, map_eq_error_iff] using setUnsigned_violation_iff
    | sets => simpa [runRule, opSets, map_eq_error_iff] using setSigned_violation_iff
    | pack => simpa [runRule, opPack, map_eq_error_iff] using pack_ne_violation _
    | unpack => simpa [runRule, opUnpack, map_eq_error_iff] using unpack_ne_violation _
    | deser => simpa [runRule, opDeser, map_eq_error_iff] using deserialize_ne_violation _ _
    | cblk => simpa [runRule, opCblk, map_eq_error_iff] using cblk_ne_violation p _
    | dblk => simpa [runRule, opDblk, map_eq_error_iff] using dblk_ne_violation p _ _
    | ser | rgb2ycc | ycc2rgb | bfwd | binv => exact iff_of_false nofun nofun

/-! ## The step of the spec -/

/-- The gate (R236): while `FATAL = 1` nothing is run. -/
theorem coreStep_of_fatal (p : Params R) {a : ArchState} (h : a.fatal = true) (c : Command R) :
    coreStep p a c = (a, .fatal) := by
  simp [coreStep, h]

theorem coreStep_of_ok {p : Params R} {a : ArchState} {c : Command R} {r : Result R} (h : a.fatal = false)
    (hr : commandOutcome p c = .ok r) : coreStep p a c = (a, .ok r) := by
  cases ho : Opcode.ofBits? c.op with
  | none => simp [commandOutcome_reserved p ho] at hr
  | some o =>
    rw [commandOutcome_of_opcode p ho] at hr
    simp [coreStep, h, ho, hr]

theorem coreStep_of_error {p : Params R} {a : ArchState} {c : Command R} {e : Exn} (h : a.fatal = false)
    (hr : commandOutcome p c = .error e) : coreStep p a c = (e.effect a, e.response) := by
  cases ho : Opcode.ofBits? c.op with
  | none =>
    rw [commandOutcome_reserved p ho] at hr
    obtain rfl := Except.error.inj hr
    simp [coreStep, h, ho, Exn.response]
  | some o =>
    rw [commandOutcome_of_opcode p ho] at hr
    cases e <;> simp [coreStep, h, ho, hr, Exn.response]

/-- What the step of the spec can do: the gate, a ContractViolation, or an answer that leaves the state alone. -/
theorem coreStep_cases (p : Params R) (a : ArchState) (c : Command R) :
    (a.fatal = true ∧ coreStep p a c = (a, .fatal)) ∨
    (a.fatal = false ∧ commandViolates c = true ∧ coreStep p a c = (⟨true⟩, .fatal)) ∨
    (a.fatal = false ∧ commandViolates c = false ∧ ∃ r, r ≠ .fatal ∧ coreStep p a c = (a, r)) := by
  cases ha : a.fatal with
  | true => exact .inl ⟨rfl, coreStep_of_fatal p ha c⟩
  | false =>
    refine .inr ?_
    cases hv : commandViolates c with
    | true => exact .inl ⟨rfl, rfl, coreStep_of_error ha ((commandOutcome_violation_iff p c).mpr hv)⟩
    | false =>
      refine .inr ⟨rfl, rfl, ?_⟩
      cases hr : commandOutcome p c with
      | ok r => exact ⟨.ok r, nofun, coreStep_of_ok ha hr⟩
      | error e =>
        cases e with
        | contractViolation => simp [(commandOutcome_violation_iff p c).mp hr] at hv
        | overflow => exact ⟨.overflow, nofun, coreStep_of_error ha hr⟩
        | incompleteWord => exact ⟨.incomplete, nofun, coreStep_of_error ha hr⟩

/-- `FATAL` after a command (R22, R233): it stood already, or the command breaks a contract. -/
theorem coreStep_fatal_eq (p : Params R) (a : ArchState) (c : Command R) :
    (coreStep p a c).1.fatal = (a.fatal || commandViolates c) := by
  obtain ⟨ha, h⟩ | ⟨-, hv, h⟩ | ⟨ha, hv, r, -, h⟩ := coreStep_cases p a c
  · simp [h, ha]
  · simp [h, hv]
  · simp [h, ha, hv]

/-- A command is answered FATAL exactly when `FATAL = 1` after it. -/
theorem coreStep_response_fatal_iff (p : Params R) (a : ArchState) (c : Command R) :
    (coreStep p a c).2 = .fatal ↔ (coreStep p a c).1.fatal = true := by
  obtain ⟨ha, h⟩ | ⟨-, -, h⟩ | ⟨ha, -, r, hr, h⟩ := coreStep_cases p a c
  · simp [h, ha]
  · simp [h]
  · simp [h, ha, hr]

/-- A command that breaks no contract leaves `FATAL = 0`. -/
theorem coreStep_safe_arch (p : Params R) {c : Command R} (h : commandViolates c = false) :
    (coreStep p ⟨false⟩ c).1 = ⟨false⟩ :=
  congrArg ArchState.mk ((coreStep_fatal_eq p ⟨false⟩ c).trans h)

/-! ## The run of the spec -/

@[simp] theorem coreRun_nil (p : Params R) (a : ArchState) : coreRun p a [] = (a, []) := rfl

@[simp] theorem coreRun_reset (p : Params R) (a : ArchState) (es : List (Event R)) :
    coreRun p a (.reset :: es) = coreRun p ⟨false⟩ es := rfl

@[simp] theorem coreRun_cmd (p : Params R) (a : ArchState) (c : Command R) (es : List (Event R)) :
    coreRun p a (.cmd c :: es) =
      ((coreRun p (coreStep p a c).1 es).1, (coreStep p a c).2 :: (coreRun p (coreStep p a c).1 es).2) := rfl

theorem coreRun_cons (p : Params R) (a : ArchState) (e : Event R) (es : List (Event R)) :
    coreRun p a (e :: es) =
      ((coreRun p (coreRun p a [e]).1 es).1, (coreRun p a [e]).2 ++ (coreRun p (coreRun p a [e]).1 es).2) := by
  cases e <;> simp

theorem length_coreRun_responses (p : Params R) (a : ArchState) (es : List (Event R)) :
    (coreRun p a es).2.length = Claims.commandCount es := by
  induction es generalizing a with
  | nil => rfl
  | cons e es ih => cases e <;> simp [ih, Claims.commandCount]

/-! ## The machine's step and run -/

/-- The machine decodes before the gate and the spec after it; both complete the same outcome. -/
theorem accept_eq_complete_commandOutcome (c : Command Rat) (s : State) :
    accept c s = complete s (commandOutcome Config.params c) := by
  rw [accept_eq]
  unfold decode commandOutcome
  cases Opcode.ofBits? c.op with
  | none => rfl
  | some o => simp [runRule_eq_perform]

theorem complete_commandOutcome (c : Command Rat) (s : State) :
    complete s (commandOutcome Config.params c) = .next
      { arch := (coreStep Config.params s.arch c).1
        events := s.events
        responses := s.responses ++ [(coreStep Config.params s.arch c).2] } := by
  cases hs : s.arch.fatal with
  | true => rw [complete_fatal hs, coreStep_of_fatal _ hs]; rfl
  | false =>
    cases hr : commandOutcome Config.params c with
    | ok r => rw [complete_ok hs, coreStep_of_ok hs hr]; rfl
    | error e => rw [complete_error hs, coreStep_of_error hs hr]; rfl

/-- A command's step is the step of R236, with the events and the responses kept beside the state. -/
theorem step_command_eq_coreStep {s : State} {c : Command Rat} {rest : List (Event Rat)} (h : s.events = .cmd c :: rest) :
    step s = .next
      { arch := (coreStep Config.params s.arch c).1
        events := rest
        responses := s.responses ++ [(coreStep Config.params s.arch c).2] } := by
  rw [step_command h, accept_eq_complete_commandOutcome, complete_commandOutcome]

/-- The machine's step is the run of R31 over the first event, if there is one. -/
theorem step_eq_coreRun_take_one (s : State) :
    step s = .next
      { arch := (coreRun Config.params s.arch (s.events.take 1)).1
        events := s.events.tail
        responses := s.responses ++ (coreRun Config.params s.arch (s.events.take 1)).2 } := by
  obtain ⟨a, es, rs⟩ := s
  rcases es with _ | ⟨c | _, rest⟩
  · simp [step_idle]
  · simp [step_command_eq_coreStep (s := ⟨a, .cmd c :: rest, rs⟩) rfl]
  · simp [step_reset]

end Sys2Proof.Machine

namespace Sys2Proof.Proofs

open Sys2Proof.Machine Sys2Proof.Safety Sys2Proof.Claims

/-! ## The invariant: `FATAL = 1` was reported -/

/-- Settles O49: a command after which `FATAL = 1` was answered FATAL, and nothing else leaves the bit set and emits. -/
theorem everyStepKeepsFatalReported : Obligations.EveryStepKeepsFatalReported := by
  intro s t hs hst
  rw [step_eq_coreRun_take_one] at hst
  obtain rfl := Host.Outcome.next.inj hst
  rcases he : s.events with _ | ⟨c | _, rest⟩
  · simpa [FatalWasReported] using hs
  · simpa [FatalWasReported] using (coreStep_response_fatal_iff Config.params s.arch c).mpr
  · simp [FatalWasReported]

/-- Settles O50: `FATAL = 0` after reset. -/
theorem resetHasFatalReported : Obligations.ResetHasFatalReported := by
  unfold Obligations.ResetHasFatalReported
  simp [FatalWasReported]

/-! ## Steps -/

/-- Settles O42, from what one command does to `FATAL` and what it answers. -/
theorem fatalIsSetOnlyByViolationAndClearedOnlyByReset :
    Obligations.FatalIsSetOnlyByViolationAndClearedOnlyByReset := by
  intro s t hst
  rw [step_eq_coreRun_take_one] at hst
  obtain rfl := Host.Outcome.next.inj hst
  rcases he : s.events with _ | ⟨c | _, rest⟩
  · simp
  · refine ⟨fun hs => ?_, fun hs => ?_, fun _ _ _ hf => ?_⟩
    · simp [coreStep_fatal_eq, hs]
    · simp [coreStep_fatal_eq, hs]
    · have hr := (coreStep_response_fatal_iff Config.params s.arch c).mpr (by simpa using hf)
      simp [hr]
  · simp

/-- Settles O45: the step is the run over the first event, and a run emits one response for each command. -/
theorem stepTakesAtMostOneEventAndAlwaysAnswers : Obligations.StepTakesAtMostOneEventAndAlwaysAnswers := by
  rintro ⟨a, es, rs⟩
  refine ⟨_, step_eq_coreRun_take_one _, fun he => ?_, rfl, _, rfl, length_coreRun_responses _ _ _⟩
  obtain rfl : es = [] := he
  simp

/-- Settles O43: accepting a command that decodes is `exec` of its instruction. -/
theorem stepExecutesTheDecodedInstruction : Obligations.StepExecutesTheDecodedInstruction := by
  intro s c rest i he hd
  rw [step_command he, accept, hd]

/-- Settles O44, by the equation of the step that takes a reset. -/
theorem resetClearsFatalAndEmitsNothing : Obligations.ResetClearsFatalAndEmitsNothing :=
  ⟨fun _ _ he => step_reset he, rfl, rfl, rfl⟩

/-! ## Runs -/

/-- Settles O47, by induction on the events: the first step is the run over the first event. -/
theorem machineRunIsTheSpecifiedRun : Obligations.MachineRunIsTheSpecifiedRun := by
  rintro ⟨a, es, rs⟩
  induction es generalizing a rs with
  | nil => simp [Host.Core.run]
  | cons e es ih =>
    have hstep : core.step ⟨a, e :: es, rs⟩ = _ := step_eq_coreRun_take_one ⟨a, e :: es, rs⟩
    simp only [List.length_cons, Host.Core.run, hstep]
    simp only [List.take_succ_cons, List.take_zero, List.tail_cons, ih]
    rw [coreRun_cons _ _ e es, List.append_assoc]

/-- Settles O48: the machine's run is the spec's, which emits one response for each command. -/
theorem everyCommandIsAnsweredOnce : Obligations.EveryCommandIsAnsweredOnce := by
  intro s
  refine ⟨_, machineRunIsTheSpecifiedRun s, rfl, ?_⟩
  rw [List.length_append, length_coreRun_responses]

/-- Settles O51, by induction on the events: up to the first violation every command leaves `FATAL = 0`. -/
theorem runsReportFatalExactlyWhenACommandViolates : Obligations.RunsReportFatalExactlyWhenACommandViolates := by
  intro R p es
  induction es with
  | nil => simp [safeRun]
  | cons e es ih =>
    cases e with
    | reset => simpa [safeRun] using ih
    | cmd c =>
      have hr := coreStep_response_fatal_iff p ⟨false⟩ c
      cases hv : commandViolates c with
      | true =>
        rw [coreStep_fatal_eq] at hr
        simp [safeRun, hv, hr.mpr]
      | false =>
        rw [coreRun_cmd, coreStep_safe_arch p hv]
        rw [coreStep_safe_arch p hv] at hr
        have hne : Response.fatal ≠ (coreStep p ⟨false⟩ c).2 := fun h => nomatch hr.mp h.symm
        simpa [safeRun, hv, hne] using ih

/-- Settles O52: a response other than FATAL was given from `FATAL = 0`; and a run of safe commands stays there. -/
theorem responsesDependOnTheirOwnCommandAlone : Obligations.ResponsesDependOnTheirOwnCommandAlone := by
  refine ⟨fun R p a c hne => ?_, fun R p cs hcs => ?_⟩
  · rcases a with ⟨_ | _⟩
    · rfl
    · exact absurd (congrArg Prod.snd (coreStep_of_fatal p rfl c)) hne
  · induction cs with
    | nil => rfl
    | cons c cs ih =>
      rw [List.forall_mem_cons] at hcs
      simp [coreStep_safe_arch p hcs.1, ih hcs.2]

end Sys2Proof.Proofs
end

/-! # The memory family (20_memory.md)

The bytes of a stream image, and the repetition of a command. A record's codeword is read as four bytes instead of six fields, and
serializing four joined bytes gives them back; a command not answered FATAL has left the state alone. -/
section

namespace Sys2Proof.Machine

/-- Serializing four joined bytes gives the bytes back, the first one joined being the most significant (20_memory.md R41). -/
theorem serialize_append (b0 b1 b2 b3 : Byte) : serialize (b0 ++ b1 ++ b2 ++ b3) = ⟨b0, b1, b2, b3⟩ := by
  -- Restated at width 8 + 8 + 8 + 8: the library's lemmas speak of slices of a join.
  show StreamBytes.mk ((b0 ++ b1 ++ b2 ++ b3).extractLsb' 24 8) ((b0 ++ b1 ++ b2 ++ b3).extractLsb' 16 8)
    ((b0 ++ b1 ++ b2 ++ b3).extractLsb' 8 8) ((b0 ++ b1 ++ b2 ++ b3).extractLsb' 0 8) = _
  simp only [BitVec.extractLsb'_append_eq_of_le, BitVec.extractLsb'_append_eq_right, BitVec.extractLsb'_eq_self,
    Nat.reduceLeDiff, Nat.reduceSub, le_refl, Nat.sub_self]

/-- The six fields of a codeword (42_codeword.md R141), cut at the byte boundaries instead: `b` and `c` each stand in two bytes. -/
theorem packed_eq_bytes (r : Record) :
    packed r =
      (r.a.extractLsb' 0 6 ++ r.b.extractLsb' 4 2 : Byte) ++ (r.b.extractLsb' 0 4 ++ r.c.extractLsb' 2 4 : Byte) ++
        (r.c.extractLsb' 0 2 ++ r.d.extractLsb' 0 6 : Byte) ++ (r.pbAvg.extractLsb' 0 4 ++ r.prAvg.extractLsb' 0 4 : Byte) := by
  apply BitVec.eq_of_getLsbD_eq
  intro i hi
  simp only [packed, BitVec.getLsbD_append, BitVec.getLsbD_setWidth, BitVec.getLsbD_extractLsb']
  interval_cases i <;> simp

end Sys2Proof.Machine

namespace Sys2Proof.Proofs

open Sys2Proof.Machine

/-- Settles O20: the record fits, and its codeword is the join of the four bytes. -/
theorem eachStreamByteHoldsItsPartOfTheFields : Obligations.EachStreamByteHoldsItsPartOfTheFields := by
  intro r cw hcw
  obtain ⟨-, h⟩ | ⟨-, h⟩ := pack_cases r
  · obtain rfl : packed r = cw := Except.ok.inj (h.symm.trans hcw)
    rw [packed_eq_bytes, serialize_append]
    exact ⟨rfl, rfl, rfl, rfl⟩
  · exact nomatch h.symm.trans hcw

/-- Settles O53: of what the step can do, only an answer that leaves the state alone is not FATAL. -/
theorem commandsOtherThanViolationsAreIdempotent : Obligations.CommandsOtherThanViolationsAreIdempotent := by
  intro R p a c hne
  have same : (coreStep p a c).1 = a := by
    obtain ⟨-, h⟩ | ⟨-, -, h⟩ | ⟨-, -, r, -, h⟩ := coreStep_cases p a c
    · exact absurd (congrArg Prod.snd h) hne
    · exact absurd (congrArg Prod.snd h) hne
    · exact congrArg Prod.fst h
  exact ⟨same, by rw [same]⟩

end Sys2Proof.Proofs
end

/-! # The encoding family (30_encoding.md)

A command is its opcode and its operand ports. The opcode map is the inverse of the table's first column, reading the ports of an
operation is the inverse of writing its instruction over a command, and the rule of an operation sees those ports alone. -/
section

namespace Sys2Proof

/-! ## The opcode map (R62, R64) -/

/-- The whole of `op` is compared: the opcode map is the inverse of the table's first column. -/
theorem ofBits_eq_some_iff {op : Byte} {o : Opcode} : Opcode.ofBits? op = some o ↔ op = o.row.bits :=
  ⟨fun h => (bits_of_ofBits h).symm, fun h => h ▸ ofBits_bits o⟩

/-- A reserved opcode is one that no row of the table has. -/
theorem ofBits_eq_none_iff {op : Byte} : Opcode.ofBits? op = none ↔ op ∉ Opcode.all.map (·.row.bits) := by
  simp [Opcode.ofBits?, List.find?_eq_none]

/-! ## Decoder and encoder (R60, R61, R63) -/

theorem decode_of_ofBits {c : Command Rat} {o : Opcode} (h : Opcode.ofBits? c.op = some o) : decode c = .ok (o.instr c) := by
  simp [decode, h]

theorem op_encodeOver (c : Command Rat) (i : Instr) : (encodeOver c i).op = i.opcode.row.bits := by cases i <;> rfl

theorem toNat_ofNat_of_fitsN8 {n : Nat} (h : fitsN8 n = true) : (BitVec.ofNat 8 n).toNat = n :=
  Nat.mod_eq_of_lt (of_decide_eq_true h)

theorem toNat_ofNat_of_fitsN3 {n : Nat} (h : fitsN3 n = true) : (BitVec.ofNat 3 n).toNat = n :=
  Nat.mod_eq_of_lt (of_decide_eq_true h)

/-- Reading the ports of an operation after writing its instruction there: the operands that are natural numbers fit their ports. -/
theorem instr_encodeOver (c : Command Rat) {i : Instr} (h : i.wf = true) : i.opcode.instr (encodeOver c i) = i := by
  cases i with
  | fitsu _ width | fitss _ width =>
    have hw : fitsN8 width = true := h
    simp only [Instr.opcode, Opcode.instr, encodeOver, toNat_ofNat_of_fitsN8 hw]
  | getu _ width lsb | gets _ width lsb | setu _ width lsb _ | sets _ width lsb _ =>
    obtain ⟨hw, hl⟩ : fitsN8 width = true ∧ fitsN8 lsb = true := Bool.and_eq_true_iff.mp h
    simp only [Instr.opcode, Opcode.instr, encodeOver, toNat_ofNat_of_fitsN8 hw, toNat_ofNat_of_fitsN8 hl]
  | deser _ nbytes | dblk _ nbytes =>
    have hn : fitsN3 nbytes = true := h
    simp only [Instr.opcode, Opcode.instr, encodeOver, toNat_ofNat_of_fitsN3 hn]
  | pack | unpack | ser | rgb2ycc | ycc2rgb | bfwd | binv | cblk => rfl

/-- Writing the instruction an operation reads from a command over that command changes the opcode alone. -/
theorem encodeOver_instr (c : Command Rat) (o : Opcode) : encodeOver c (o.instr c) = { c with op := o.row.bits } := by
  cases o <;> simp [Opcode.instr, encodeOver, Opcode.row]

/-- The table word of a row is its operation with the operands of zeroed ports. -/
theorem decodeTableWord_bits (o : Opcode) :
    decodeTableWord 8 o.row.bits.toNat = some (o.instr (Command.ofOpcode o.row.bits)) := by
  have hlt : o.row.bits.toNat < 256 := o.row.bits.isLt
  have hd : decode (Command.ofOpcode o.row.bits) = .ok (o.instr (Command.ofOpcode o.row.bits)) :=
    decode_of_ofBits (ofBits_bits o)
  simp [decodeTableWord, Nat.mod_eq_of_lt hlt, Nat.not_le.mpr hlt, hd, Except.toOption]

/-! ## The textual form (R69) -/

/-- No name stands twice among the mnemonics and the source functions' names. -/
theorem ofName_mnemonic (o : Opcode) : Opcode.ofName? o.row.mnemonic = some o := by
  cases o <;> decide +kernel

theorem ofName_sourceFunction (o : Opcode) : Opcode.ofName? o.row.sourceFunction = some o := by
  cases o <;> decide +kernel

@[simp] theorem unsigned_toNat {n : Nat} (x : BitVec n) : unsigned? n x.toNat = some x := by
  have h : (x.toNat : Int) < 2 ^ n := by exact_mod_cast x.isLt
  simp [unsigned?, h]

@[simp] theorem signed64_toInt (x : Word) : signed64? x.toInt = some x := by
  have hlo : -2 ^ 63 ≤ x.toInt := BitVec.le_toInt x
  have hhi : x.toInt < 2 ^ 63 := BitVec.toInt_lt
  rw [signed64?, if_pos ⟨hlo, by omega⟩, BitVec.ofInt_toInt]

theorem natBelow_of_fitsN8 {n : Nat} (h : fitsN8 n = true) : natBelow? 256 n = some n := by
  have hn : n < 256 := of_decide_eq_true h
  simp [natBelow?, hn]

theorem natBelow_of_fitsN3 {n : Nat} (h : fitsN3 n = true) : natBelow? 8 n = some n := by
  have hn : n < 8 := of_decide_eq_true h
  simp [natBelow?, hn]

@[simp] theorem record_toNat_toInt (r : Record) :
    record? r.a.toNat r.b.toInt r.c.toInt r.d.toInt r.pbAvg.toNat r.prAvg.toNat = some r := by
  simp [record?]

@[simp] theorem lanes_toNat (b : StreamBytes) (nbytes : Nat) :
    lanes? [b.b0.toNat, b.b1.toNat, b.b2.toNat, b.b3.toNat] nbytes = some b := by
  simp [lanes?]

/-- An operation reads the operands of its instruction back, each from the token it is written as. -/
theorem assemble_operands {i : Instr} (h : i.wf = true) : i.opcode.assemble i.operands = some i := by
  cases i with
  | fitsu _ width | fitss _ width =>
    have hw : fitsN8 width = true := h
    simp [Instr.opcode, Instr.operands, Opcode.assemble, natBelow_of_fitsN8 hw]
  | getu _ width lsb | gets _ width lsb | setu _ width lsb _ | sets _ width lsb _ =>
    obtain ⟨hw, hl⟩ : fitsN8 width = true ∧ fitsN8 lsb = true := Bool.and_eq_true_iff.mp h
    simp [Instr.opcode, Instr.operands, Opcode.assemble, natBelow_of_fitsN8 hw, natBelow_of_fitsN8 hl]
  | pack | binv => simp [Instr.opcode, Instr.operands, Opcode.assemble, Record.operand]
  | unpack | ser => simp [Instr.opcode, Instr.operands, Opcode.assemble]
  | deser _ nbytes | dblk _ nbytes =>
    have hn : fitsN3 nbytes = true := h
    simp [Instr.opcode, Instr.operands, Opcode.assemble, StreamBytes.operand, natBelow_of_fitsN3 hn]
  | rgb2ycc | ycc2rgb | bfwd | cblk => rfl

/-- A line assembles to the instruction whose operation its name selects and whose operands it writes. -/
theorem assemble_of_ofName {name : String} {i : Instr} (hn : Opcode.ofName? name = some i.opcode) (h : i.wf = true) :
    assemble name i.operands = some i := by
  rw [assemble, hn, Option.bind_some, assemble_operands h]

end Sys2Proof

namespace Sys2Proof.Machine

open Sys2Proof.Claims

variable {R : Type}

/-! ## The ports read and the port driven (R61) -/

/-- The rule of an operation sees the ports of its format alone. -/
theorem runRule_congr (p : Params R) (o : Opcode) {c c' : Command R} (h : ∀ port ∈ o.row.format.reads, agreeOn port c c') :
    runRule p o c = runRule p o c' := by
  cases o <;> simp only [Opcode.row, Format.reads, List.forall_mem_cons, agreeOn] at h <;> simp only [runRule, h]

/-- The step depends on a command through its outcome alone. -/
theorem coreStep_congr {p : Params R} {c c' : Command R} (h : commandOutcome p c = commandOutcome p c') (a : ArchState) :
    coreStep p a c = coreStep p a c' := by
  cases ha : a.fatal with
  | true => rw [coreStep_of_fatal p ha, coreStep_of_fatal p ha]
  | false =>
    cases hr : commandOutcome p c with
    | ok r => rw [coreStep_of_ok ha hr, coreStep_of_ok ha (h ▸ hr)]
    | error e => rw [coreStep_of_error ha hr, coreStep_of_error ha (h ▸ hr)]

/-- A command is answered OK only with the result of its pseudocode. -/
theorem commandOutcome_of_response_ok {p : Params R} {a : ArchState} {c : Command R} {r : Result R}
    (h : (coreStep p a c).2 = .ok r) : commandOutcome p c = .ok r := by
  cases ha : a.fatal with
  | true => simp [coreStep_of_fatal p ha] at h
  | false =>
    cases hr : commandOutcome p c with
    | ok r' => simpa [coreStep_of_ok ha hr] using h
    | error e => cases e <;> simp [coreStep_of_error ha hr, Exn.response] at h

/-- What `Except.map f` answers is an `f` of something. -/
theorem exists_eq_of_map_eq_ok {α β : Type} {f : α → β} {x : Except Exn α} {b : β} (h : x.map f = .ok b) : ∃ a, f a = b := by
  cases x with
  | ok a => exact ⟨a, Except.ok.inj h⟩
  | error => exact nomatch h

theorem eq_of_checkWidth_bind_pure {α : Type} {width : Nat} {x y : α} (h : (checkWidth width >>= fun _ => pure x) = .ok y) :
    x = y := by
  rcases Nat.lt_or_ge 64 width with hw | hw
  · rw [checkWidth_error hw] at h
    exact nomatch h
  · rw [checkWidth_ok hw] at h
    exact Except.ok.inj h

/-- A result stands on the port of its operation. -/
theorem port_of_runRule_ok {p : Params R} {o : Opcode} {c : Command R} {r : Result R} (h : runRule p o c = .ok r) :
    r.port = o.drives := by
  cases o with
  | fitsu | fitss =>
    obtain rfl := eq_of_checkWidth_bind_pure h
    rfl
  | getu | gets | setu | sets | pack | unpack | deser | cblk | dblk =>
    simp only [runRule, opGetu, opGets, opSetu, opSets, opPack, opUnpack, opDeser, opCblk, opDblk] at h
    obtain ⟨_, rfl⟩ := exists_eq_of_map_eq_ok h
    rfl
  | ser | rgb2ycc | ycc2rgb | bfwd | binv =>
    obtain rfl := Except.ok.inj h
    rfl

/-! ## The status (R66, R67) -/

theorem result_isSome_iff (r : Response R) : r.result?.isSome = true ↔ r.status = 0 := by
  cases r <;> simp [Response.result?, Response.status]

end Sys2Proof.Machine

namespace Sys2Proof.Proofs

open Sys2Proof.Machine

/-! ## Decoder and encoder -/

/-- Settles O54: the encoded command carries the instruction's opcode, and that operation reads its operands back. -/
theorem decodeOfEncodeIsTheInstruction : Obligations.DecodeOfEncodeIsTheInstruction := by
  intro i c h
  rw [decode_of_ofBits (ofBits_eq_some_iff.mpr (op_encodeOver c i)), instr_encodeOver c h]

/-- Settles O55: of a command that decodes, encoding rewrites nothing but the opcode, with the opcode it has. -/
theorem encodeOfDecodeIsTheCommand : Obligations.EncodeOfDecodeIsTheCommand := by
  intro c i h
  refine ⟨?_, decode_wf h⟩
  obtain ⟨o, ho, hd⟩ | ⟨-, hd⟩ := decode_cases c
  · obtain rfl : o.instr c = i := Except.ok.inj (hd.symm.trans h)
    rw [encodeOver_instr, ho]
  · exact nomatch hd.symm.trans h

/-! ## The opcode map -/

/-- Settles O40: an opcode of no row raises ContractViolation, which sets `FATAL` and is answered FATAL. -/
theorem reservedOpcodesAreContractViolations : Obligations.ReservedOpcodesAreContractViolations := by
  intro c rest s hs he hop
  have reserved := commandOutcome_reserved Config.params (ofBits_eq_none_iff.mpr hop)
  rw [step_command_eq_coreStep he, coreStep_of_error hs reserved]
  rfl

/-- Settles O56: the opcode map is the inverse of the table's first column, and the table is R62's. -/
theorem opcodeMapIsInjectiveAndReservesTheRest : Obligations.OpcodeMapIsInjectiveAndReservesTheRest :=
  ⟨fun _ _ => ofBits_eq_some_iff, rfl, by decide +kernel⟩

/-- Settles O57: six rows of the table, and an opcode of no row. -/
theorem tableWordsDecodeToTheirInstructions : Obligations.TableWordsDecodeToTheirInstructions :=
  ⟨decodeTableWord_bits .getu, decodeTableWord_bits .sets, decodeTableWord_bits .deser, decodeTableWord_bits .ycc2rgb,
    decodeTableWord_bits .bfwd, decodeTableWord_bits .dblk, by decide⟩

/-! ## Ports and status -/

/-- Settles O58: the outcome of a command comes from the rule of its opcode, which sees the ports of the format alone and drives
the port of the operation. -/
theorem formatsNameThePortsReadAndDriven : Obligations.FormatsNameThePortsReadAndDriven := by
  refine ⟨fun R p a c c' hop hports => coreStep_congr ?_ a, fun R p a c r hr => ?_, rfl⟩
  · cases ho : Opcode.ofBits? c.op with
    | none => rw [commandOutcome_reserved p ho, commandOutcome_reserved p (hop ▸ ho)]
    | some o =>
      rw [commandOutcome_of_opcode p ho, commandOutcome_of_opcode p (hop ▸ ho), runRule_congr p o (hports o ho)]
  · have outcome := commandOutcome_of_response_ok hr
    cases ho : Opcode.ofBits? c.op with
    | none => exact nomatch (commandOutcome_reserved p ho).symm.trans outcome
    | some o => exact ⟨o, rfl, port_of_runRule_ok ((commandOutcome_of_opcode p ho).symm.trans outcome)⟩

/-- Settles O59, by the constructors of a response and the FATAL gate. -/
theorem onlyStatusOkCarriesAResult : Obligations.OnlyStatusOkCarriesAResult := by
  refine fun R p a c => ⟨result_isSome_iff _, fun ha => ?_⟩
  rw [coreStep_of_fatal p ha]
  rfl

/-! ## The textual form -/

/-- Settles O60: both names select the instruction's operation, which reads the written operands back. -/
theorem assemblyOfTheWrittenFormIsTheInstruction : Obligations.AssemblyOfTheWrittenFormIsTheInstruction :=
  fun i h => ⟨assemble_of_ofName (ofName_mnemonic i.opcode) h, assemble_of_ofName (ofName_sourceFunction i.opcode) h⟩

end Sys2Proof.Proofs
end

/-! # The extract family (40_bitfield_extract.md)

A legal extract is a slice of the word, extended (R98, R100), and an insert replaces the bits of its field: the laws of the extracts
are facts about slices, and what an extract sees of an insert is read off bit by bit. At the machine, each answer comes from the
outcome of the instruction's pseudocode. -/
section

namespace Sys2Proof.Machine

open Sys2Proof.Safety Sys2Proof.Claims

variable {R : Type}

/-! ## From the pseudocode's outcome to the machine's answer (R233, R236) -/

theorem exec_of_ok {s : State} (hs : s.arch.fatal = false) {i : Instr} {r : Result Rat}
    (h : perform Config.params i = .ok r) : exec i s = .next (answered s (.ok r)) := by
  rw [exec_eq_complete, h, complete_ok hs]
  rfl

theorem exec_of_error {s : State} (hs : s.arch.fatal = false) {i : Instr} {e : Exn}
    (h : perform Config.params i = .error e) : exec i s = .next (s.takeException e) := by
  rw [exec_eq_complete, h, complete_error hs]

/-- The first two rows of R231's table, for an instruction with any operands: those no port can hold are included. -/
theorem perform_violation_iff (p : Params Rat) (i : Instr) :
    perform p i = .error .contractViolation ↔ violates i = true := by
  cases i with
  | fitsu => simpa [perform, violates] using opFitsu_violation_iff
  | fitss => simpa [perform, violates] using opFitss_violation_iff
  | getu => simpa [perform, violates, opGetu, map_eq_error_iff] using getUnsigned_violation_iff
  | gets => simpa [perform, violates, opGets, map_eq_error_iff] using getSigned_violation_iff
  | setu => simpa [perform, violates, opSetu, map_eq_error_iff] using setUnsigned_violation_iff
  | sets => simpa [perform, violates, opSets, map_eq_error_iff] using setSigned_violation_iff
  | pack => simpa [perform, violates, opPack, map_eq_error_iff] using pack_ne_violation _
  | unpack => simpa [perform, violates, opUnpack, map_eq_error_iff] using unpack_ne_violation _
  | deser => simpa [perform, violates, opDeser, map_eq_error_iff] using deserialize_ne_violation _ _
  | cblk => simpa [perform, violates, opCblk, map_eq_error_iff] using cblk_ne_violation p _
  | dblk => simpa [perform, violates, opDblk, map_eq_error_iff] using dblk_ne_violation p _ _
  | ser | rgb2ycc | ycc2rgb | bfwd | binv => exact iff_of_false nofun nofun

/-- An instruction that breaks its contract sets `FATAL` and is answered FATAL (R94, R233). -/
theorem exec_of_violates {s : State} (hs : s.arch.fatal = false) {i : Instr} (h : violates i = true) :
    exec i s = .next (violated s) :=
  exec_of_error hs ((perform_violation_iff _ i).mpr h)

/-- An instruction that breaks no contract is answered something other than FATAL and changes nothing else. -/
theorem exec_of_not_violates {s : State} (hs : s.arch.fatal = false) {i : Instr} (h : violates i = false) :
    ∃ r, r ≠ .fatal ∧ exec i s = .next (answered s r) := by
  cases hp : perform Config.params i with
  | ok r => exact ⟨.ok r, nofun, exec_of_ok hs hp⟩
  | error e =>
    cases e with
    | contractViolation => simp [(perform_violation_iff _ i).mp hp] at h
    | overflow => exact ⟨.overflow, nofun, exec_of_error hs hp⟩
    | incompleteWord => exact ⟨.incomplete, nofun, exec_of_error hs hp⟩

/-! ## The range tests (R95, R96) -/

theorem opFitsu_ok (value : Word) {width : Nat} (h : width ≤ 64) :
    opFitsu (R := R) value width = .ok (.flag (decide (value.toNat < 2 ^ width))) := by
  rw [opFitsu, checkWidth_ok h, fitsUnsigned_eq]
  rfl

theorem fitsSigned_eq (value : Word) (width : Nat) : fitsSigned value width = decide (inSignedRange value.toInt width) := by
  rcases Nat.eq_zero_or_pos width with rfl | hw
  · simp [fitsSigned, inSignedRange]
  · have hpos : 1 ≤ width := hw
    simp [fitsSigned, inSignedRange, hpos, Nat.ne_of_gt hw]

theorem opFitss_ok (value : Word) {width : Nat} (h : width ≤ 64) :
    opFitss (R := R) value width = .ok (.flag (decide (inSignedRange value.toInt width))) := by
  rw [opFitss, checkWidth_ok h, fitsSigned_eq]
  rfl

/-- Left-aligning the low `width` bits and shifting back arithmetically sign-extends them: multiplying by `2^(64 − width)` and
dividing again is exact, and what is lost on the way is lost modulo `2^width`. -/
theorem shr64s_shl64 (value : Word) {width : Nat} (hpos : 1 ≤ width) (hle : width ≤ 64) :
    shr64s (shl64 value (64 - width)) (64 - width) = (value.setWidth width).signExtend 64 := by
  have hsplit : (2 : Nat) ^ 64 = 2 ^ (64 - width) * 2 ^ width := by rw [← pow_add, Nat.sub_add_cancel hle]
  have heven : 2 ∣ 2 ^ width := dvd_pow_self 2 (by omega)
  apply BitVec.eq_of_toInt_eq
  rw [shr64s_eq _ _ (by omega), shl64_eq, BitVec.toInt_sshiftRight, BitVec.toInt_shiftLeft, BitVec.toInt_signExtend_of_le hle,
    BitVec.toInt_setWidth, Nat.shiftLeft_eq, Int.shiftRight_eq_div_pow, mul_comm, hsplit, Nat.cast_mul,
    Int.mod_bmod_mul_of_pos _ _ (by positivity) heven]
  exact Int.mul_ediv_cancel_left _ (by positivity)

/-! ## The extracts (R98, R100) -/

theorem opGetu_ok (word : Word) {width lsb : Nat} (h : width + lsb ≤ 64) :
    opGetu (R := R) word width lsb = .ok (.word ((word.extractLsb' lsb width).setWidth 64)) := by
  rw [opGetu, getUnsigned_ok word h]
  rfl

theorem opGets_ok (word : Word) {width lsb : Nat} (h : width + lsb ≤ 64) :
    opGets (R := R) word width lsb = .ok (.word ((word.extractLsb' lsb width).signExtend 64)) := by
  rw [opGets, getSigned_ok word h]
  rfl

/-! ## Extension of a `width`-bit field -/

/-- A sign-extended field lies in the two's-complement range of its width. -/
theorem inSignedRange_signExtend {width : Nat} (f : BitVec width) (hpos : 1 ≤ width) (hle : width ≤ 64) :
    inSignedRange (f.signExtend 64).toInt width := by
  rw [BitVec.toInt_signExtend_of_le hle]
  exact ⟨hpos, BitVec.le_toInt f, Int.le_sub_one_of_lt BitVec.toInt_lt⟩

/-- Sign-extending the low `width` bits gives a value back exactly when it lies in the range of the width. -/
theorem signExtend_setWidth_eq_self_iff (value : Word) {width : Nat} (hpos : 1 ≤ width) (hle : width ≤ 64) :
    (value.setWidth width).signExtend 64 = value ↔ inSignedRange value.toInt width := by
  refine ⟨fun h => h ▸ inSignedRange_signExtend _ hpos hle, fun ⟨_, hlo, hhi⟩ => ?_⟩
  have hdouble : (2 : Int) ^ width = 2 ^ (width - 1) * 2 := by rw [← pow_succ, Nat.sub_add_cancel hpos]
  apply BitVec.eq_of_toInt_eq
  rw [BitVec.toInt_signExtend_of_le hle, ← BitVec.signExtend_eq_setWidth_of_le _ hle,
    BitVec.toInt_signExtend_eq_toInt_bmod_of_le _ hle]
  apply Int.bmod_eq_of_le_mul_two <;> push_cast <;> omega

/-- Zero-extending the low `width` bits gives back a value below `2^width`. -/
theorem setWidth_setWidth_eq_self_of_lt {value : Word} {width : Nat} (h : value.toNat < 2 ^ width) :
    (value.setWidth width).setWidth 64 = value := by
  apply BitVec.eq_of_toNat_eq
  rw [BitVec.toNat_setWidth, BitVec.toNat_setWidth, Nat.mod_eq_of_lt h, Nat.mod_eq_of_lt value.isLt]

theorem toInt_emod_two_pow {width : Nat} (f : BitVec width) : f.toInt % 2 ^ width = f.toNat := by
  have hlt : (f.toNat : Int) < 2 ^ width := by exact_mod_cast f.isLt
  have hmod : f.toInt % 2 ^ width = f.toNat % 2 ^ width := by
    rw [BitVec.toInt_eq_toNat_bmod]
    exact_mod_cast Int.bmod_emod
  rw [hmod, Int.emod_eq_of_lt (by positivity) hlt]

theorem toInt_eq_toNat_iff_msb {width : Nat} (f : BitVec width) : f.toInt = f.toNat ↔ f.msb = false := by
  rw [BitVec.toInt_eq_msb_cond]
  cases f.msb <;> simp

/-- The sign of a field is its highest bit in the word; an empty field has none. -/
theorem msb_field_eq_false_iff (word : Word) (width lsb : Nat) :
    (word.extractLsb' lsb width).msb = false ↔ width = 0 ∨ word.getLsbD (lsb + width - 1) = false := by
  rcases Nat.eq_zero_or_pos width with rfl | hw
  · simp
  · simp [BitVec.msb_eq_getLsbD_last, hw, Nat.ne_of_gt hw, Nat.add_sub_assoc (show 1 ≤ width from hw)]

/-- The sign-extended field by cases (R100). -/
theorem toInt_signedField (word : Word) {width lsb : Nat} (h : width + lsb ≤ 64) :
    ((word.extractLsb' lsb width).signExtend 64).toInt =
      if width = 0 then 0
      else if 2 ^ (width - 1) ≤ word.toNat / 2 ^ lsb % 2 ^ width
        then ((word.toNat / 2 ^ lsb % 2 ^ width : Nat) : Int) - 2 ^ width
      else ((word.toNat / 2 ^ lsb % 2 ^ width : Nat) : Int) := by
  rw [BitVec.toInt_signExtend_of_le (by omega), BitVec.toInt_eq_toNat_cond, BitVec.extractLsb'_toNat,
    Nat.shiftRight_eq_div_pow]
  generalize word.toNat / 2 ^ lsb = u
  rcases Nat.eq_zero_or_pos width with rfl | hw
  · simp [Nat.mod_one]
  · have hdouble : 2 ^ width = 2 ^ (width - 1) * 2 := by rw [← pow_succ, Nat.sub_add_cancel hw]
    have flip : 2 * (u % 2 ^ width) < 2 ^ width ↔ ¬ 2 ^ (width - 1) ≤ u % 2 ^ width := by
      generalize u % 2 ^ width = r
      omega
    simp only [Nat.ne_of_gt hw, if_false, flip, ite_not]
    push_cast
    rfl

/-! ## What an extract sees of an insert -/

/-- A field of the word left by an insert: the inserted bits where the two fields overlap, the old ones elsewhere. -/
theorem getLsbD_field_insertField (word value : Word) {w1 l1 w2 l2 : Nat} (h1 : w1 + l1 ≤ 64) (h2 : w2 + l2 ≤ 64) {i : Nat}
    (hi : i < w2) :
    ((insertField word w1 l1 value).extractLsb' l2 w2).getLsbD i =
      if l1 ≤ l2 + i ∧ l2 + i < l1 + w1 then value.getLsbD (l2 + i - l1) else word.getLsbD (l2 + i) := by
  simp only [BitVec.getLsbD_extractLsb', hi, decide_true, Bool.true_and,
    getLsbD_insertField word value h1 (show l2 + i < 64 by omega)]

/-- The field just inserted holds the low bits of the value. -/
theorem field_insertField_same (word value : Word) {width lsb : Nat} (h : width + lsb ≤ 64) :
    (insertField word width lsb value).extractLsb' lsb width = value.setWidth width := by
  apply BitVec.eq_of_getLsbD_eq
  intro i hi
  rw [getLsbD_field_insertField word value h h hi, if_pos (by omega)]
  simp [hi]

/-- A field apart from the inserted one, or empty, or beside an empty one, is unchanged. -/
theorem field_insertField_disjoint (word value : Word) {w1 l1 w2 l2 : Nat} (h1 : w1 + l1 ≤ 64) (h2 : w2 + l2 ≤ 64)
    (hd : w2 = 0 ∨ w1 = 0 ∨ l1 + w1 ≤ l2 ∨ l2 + w2 ≤ l1) :
    (insertField word w1 l1 value).extractLsb' l2 w2 = word.extractLsb' l2 w2 := by
  apply BitVec.eq_of_getLsbD_eq
  intro i hi
  rw [getLsbD_field_insertField word value h1 h2 hi, if_neg (by omega)]
  simp [hi]

/-- Both extracts see the bits of the field (20_memory.md R45). -/
theorem seenThrough_insertField (word value : Word) {w1 l1 w2 l2 : Nat} (h1 : w1 + l1 ≤ 64) (h2 : w2 + l2 ≤ 64) :
    seenThrough word value w1 l1 w2 l2 (insertField word w1 l1 value) := by
  refine ⟨_, _, getUnsigned_ok _ h2, getSigned_ok _ h2, fun i hi => ?_⟩
  have h64 : i < 64 := by omega
  rw [← getLsbD_field_insertField word value h1 h2 hi, BitVec.getLsbD_setWidth, BitVec.getLsbD_signExtend]
  simp only [h64, hi, decide_true, Bool.true_and, if_true, and_self]

/-- `setSigned_ok`, with the range test as the range itself (R122). -/
theorem setSigned_of_inSignedRange (word : Word) {value : Word} {width lsb : Nat} (h : width + lsb ≤ 64)
    (hv : inSignedRange value.toInt width) : setSigned word width lsb value = .ok (insertField word width lsb value) :=
  setSigned_ok word value h (by rw [fitsSigned_eq, decide_eq_true hv])

/-! ## Legal descriptors -/

/-- There are `64 − width + 1` legal offsets for a width up to 64, and none above (R102). -/
theorem card_legalDescriptors :
    ((Finset.range 256 ×ˢ Finset.range 256).filter fun d => legalDescriptor d.1 d.2 = true).card = 2145 := by
  have row : ∀ width, ((Finset.range 256).filter fun lsb => legalDescriptor width lsb = true) = Finset.range (65 - width) := by
    intro width
    ext lsb
    simp only [legalDescriptor, Finset.mem_filter, Finset.mem_range, decide_eq_true_eq]
    omega
  rw [Finset.card_filter, Finset.sum_product]
  simp only [← Finset.card_filter, row, Finset.card_range]
  decide +kernel

end Sys2Proof.Machine

namespace Sys2Proof.Proofs

open Sys2Proof.Machine Sys2Proof.Safety Sys2Proof.Claims

/-! ## Contracts -/

/-- Settles O35: the instructions whose pseudocode raises ContractViolation are those that break the check R94 gives them. -/
theorem brokenContractsAreAnsweredFatalAndLatch : Obligations.BrokenContractsAreAnsweredFatalAndLatch :=
  fun _ _ hs => ⟨exec_of_violates hs, exec_of_not_violates hs⟩

/-! ## Shift primitives -/

/-- Settles O7: each primitive is the shift of bit vectors, the arithmetic one for counts below 64. -/
theorem shiftPrimitivesAreArithmeticAndZeroAtSixtyFour : Obligations.ShiftPrimitivesAreArithmeticAndZeroAtSixtyFour := by
  intro x n _
  refine ⟨?_, ?_, fun hn => ⟨?_, fun i hi => ?_⟩, rfl, rfl, rfl, ?_, ?_⟩
  · rw [shl64_eq, BitVec.toNat_shiftLeft, Nat.shiftLeft_eq]
  · rw [shr64u_eq, BitVec.toNat_ushiftRight, Nat.shiftRight_eq_div_pow]
  · rw [shr64s_eq x n hn, BitVec.toInt_sshiftRight, Int.shiftRight_eq_div_pow]
    norm_cast
  · rw [shr64s_eq x n hn, BitVec.getLsbD_sshiftRight, BitVec.msb_eq_getLsbD_last]
    simp [Nat.not_le.mpr hi]
  · rw [shl64_eq, BitVec.shiftLeft_zero]
  · rw [shr64u_eq, BitVec.ushiftRight_zero]

/-! ## Range tests -/

/-- Settles O1, from FITSU's outcome at a legal width; any other width breaks the contract. -/
theorem fitsuAnswersWhetherValueIsBelowTwoToWidth : Obligations.FitsuAnswersWhetherValueIsBelowTwoToWidth :=
  fun value _ _ hs =>
    ⟨fun h => exec_of_ok hs (opFitsu_ok value h), fun h => exec_of_violates hs (decide_eq_true h)⟩

/-- Settles O2: the two shifts sign-extend the low bits, which gives back the values of the range and no others. -/
theorem fitssAnswersWhetherValueIsInSignedRange : Obligations.FitssAnswersWhetherValueIsInSignedRange := by
  refine fun value width s hs => ⟨fun h => exec_of_ok hs (opFitss_ok value h),
    fun h => exec_of_violates hs (decide_eq_true h), fun hpos hle => ?_⟩
  rw [shr64s_shl64 value hpos hle, signExtend_setWidth_eq_self_iff value hpos hle]

/-! ## Extracts -/

/-- Settles O3: the answer is the zero-extended slice, as a number and bit by bit. -/
theorem getuAnswersTheUnsignedField : Obligations.GetuAnswersTheUnsignedField := by
  refine fun word width lsb s hs => ⟨fun h => ⟨_, exec_of_ok hs (opGetu_ok word h),
    toNat_unsignedField word h, fun i => ?_⟩,
    fun h => exec_of_violates hs (congrArg (!·) (legalDescriptor_eq_false_iff.mpr h))⟩
  rw [BitVec.getLsbD_setWidth, BitVec.getLsbD_extractLsb']
  by_cases hi : i < width
  · simp [hi, show i < 64 by omega]
  · simp [hi]

/-- Settles O4: the answer is the sign-extended slice. -/
theorem getsAnswersTheSignExtendedField : Obligations.GetsAnswersTheSignExtendedField :=
  fun word _ _ _ hs => ⟨fun h => ⟨_, exec_of_ok hs (opGets_ok word h), toInt_signedField word h, rfl⟩,
    fun h => exec_of_violates hs (congrArg (!·) (legalDescriptor_eq_false_iff.mpr h))⟩

/-- Settles O13, from the four instructions' answers and the count of the legal descriptors width by width. -/
theorem rangeTestsAndExtractsAnswerOkOrFatal : Obligations.RangeTestsAndExtractsAnswerOkOrFatal := by
  refine ⟨fun v width s hs i hi => ?_, fun w width lsb s hs i hi => ?_, card_legalDescriptors⟩
  · rcases List.mem_pair.mp hi with rfl | rfl
    · obtain ⟨ok, bad⟩ := fitsuAnswersWhetherValueIsBelowTwoToWidth v width s hs
      exact ⟨fun h => ⟨_, ok h⟩, bad⟩
    · obtain ⟨ok, bad, -⟩ := fitssAnswersWhetherValueIsInSignedRange v width s hs
      exact ⟨fun h => ⟨_, ok h⟩, bad⟩
  · rcases List.mem_pair.mp hi with rfl | rfl
    · obtain ⟨ok, bad⟩ := getuAnswersTheUnsignedField w width lsb s hs
      exact ⟨fun ⟨_, h⟩ => (ok h).imp fun _ hx => hx.1, fun h => bad (by omega)⟩
    · obtain ⟨ok, bad⟩ := getsAnswersTheSignExtendedField w width lsb s hs
      exact ⟨fun ⟨_, h⟩ => (ok h).imp fun _ hx => hx.1, fun h => bad (by omega)⟩

/-! ## The laws -/

/-- Settles O8: the range, split and single-bit laws are arithmetic of quotients and remainders, the rest are facts of slices. -/
theorem unsignedExtractionObeysItsSixLaws : Obligations.UnsignedExtractionObeysItsSixLaws := by
  refine ⟨fun w n l h => ⟨_, getUnsigned_ok w h, ?range⟩,
    fun w n1 n2 l h => ⟨_, _, _, getUnsigned_ok w h, getUnsigned_ok w (by omega), getUnsigned_ok w (by omega), ?split⟩,
    fun w => ?whole, fun w l h => ⟨_, getUnsigned_ok w (by omega), ?single⟩,
    fun w v n l h hv => ⟨_, setUnsigned_ok w v h hv, ?same⟩,
    fun w v n l n2 l2 h h2 hv hd => ⟨_, _, setUnsigned_ok w v h2 hv, getUnsigned_ok _ h, ?disjoint⟩⟩
  case range =>
    rw [toNat_unsignedField w h]
    exact Nat.mod_lt _ (by positivity)
  case split =>
    rw [toNat_unsignedField w h, toNat_unsignedField w (by omega), toNat_unsignedField w (by omega),
      pow_add 2 n1 n2, Nat.mod_mul, Nat.div_div_eq_div_mul, ← pow_add]
  case whole => rw [getUnsigned_ok w (by omega), BitVec.extractLsb'_eq_self, BitVec.setWidth_eq]
  case single =>
    rw [toNat_unsignedField w (by omega), pow_one]
    exact (Nat.toNat_testBit w.toNat l).symm
  case same => rw [getUnsigned_ok _ h, field_insertField_same w v h, setWidth_setWidth_eq_self_of_lt hv]
  case disjoint => rw [field_insertField_disjoint w v h2 h (by omega), getUnsigned_ok w h]

/-- Settles O9: the same slice, sign-extended. -/
theorem signedExtractionObeysItsLaws : Obligations.SignedExtractionObeysItsLaws := by
  refine ⟨fun w n l hpos h => ⟨_, getSigned_ok w h, inSignedRange_signExtend _ hpos (by omega)⟩,
    fun w n l h => ⟨_, _, getSigned_ok w h, getUnsigned_ok w h, ?relation⟩, fun w => ?whole,
    fun w v n l h hv => ⟨_, setSigned_of_inSignedRange w h hv, ?same⟩, fun w v l h => ?empty⟩
  case relation =>
    rw [BitVec.toInt_signExtend_of_le (by omega), BitVec.toNat_setWidth_of_le (by omega), ← msb_field_eq_false_iff]
    exact ⟨toInt_emod_two_pow _, toInt_eq_toNat_iff_msb _⟩
  case whole => rw [getSigned_ok w (by omega), BitVec.extractLsb'_eq_self, BitVec.signExtend_eq]
  case same =>
    rw [getSigned_ok _ h, field_insertField_same w v h, (signExtend_setWidth_eq_self_iff v hv.1 (by omega)).mpr hv]
  case empty => exact setSigned_overflow w v (by omega) rfl

/-- Settles O12: both inserts leave the inserted field, and both extracts see its bits. -/
theorem extractSeesInsertedBitsWhereTheFieldsOverlap : Obligations.ExtractSeesInsertedBitsWhereTheFieldsOverlap :=
  fun w v _ _ _ _ h1 h2 => ⟨fun hv => ⟨_, setUnsigned_ok w v h1 hv, seenThrough_insertField w v h1 h2⟩,
    fun hv => ⟨_, setSigned_of_inSignedRange w h1 hv, seenThrough_insertField w v h1 h2⟩⟩

end Sys2Proof.Proofs
end

/-! # The insert family (41_bitfield_insert.md)

A legal insert of a value in range answers `insertField`, whose bits `getLsbD_insertField` gives (R120, R122): the laws are about
`insertField` alone, read off bit by bit, and the arithmetic form by cutting the word at the two ends of the field. -/
section

namespace Sys2Proof.Machine

open Sys2Proof.Safety Sys2Proof.Claims

variable {R : Type}

/-- Overflow is reported and changes nothing else (R234). -/
theorem exec_of_overflow {s : State} (hs : s.arch.fatal = false) {i : Instr} (h : perform Config.params i = .error .overflow) :
    exec i s = .next (answered s .overflow) := by
  rw [exec_of_error hs h]
  rfl

/-! ## The outcomes of the inserts -/

theorem opSetu_ok (word : Word) {value : Word} {width lsb : Nat} (h : width + lsb ≤ 64) (hv : value.toNat < 2 ^ width) :
    opSetu (R := R) word width lsb value = .ok (.word (insertField word width lsb value)) := by
  rw [opSetu, setUnsigned_ok word value h hv]
  rfl

theorem opSetu_overflow (word : Word) {value : Word} {width lsb : Nat} (h : width + lsb ≤ 64) (hv : 2 ^ width ≤ value.toNat) :
    opSetu (R := R) word width lsb value = .error .overflow := by
  rw [opSetu, setUnsigned_overflow word value h hv]
  rfl

theorem opSets_ok (word : Word) {value : Word} {width lsb : Nat} (h : width + lsb ≤ 64)
    (hv : inSignedRange value.toInt width) :
    opSets (R := R) word width lsb value = .ok (.word (insertField word width lsb value)) := by
  rw [opSets, setSigned_of_inSignedRange word h hv]
  rfl

theorem opSets_overflow (word : Word) {value : Word} {width lsb : Nat} (h : width + lsb ≤ 64)
    (hv : ¬ inSignedRange value.toInt width) : opSets (R := R) word width lsb value = .error .overflow := by
  rw [opSets, setSigned_overflow word value h (by rw [fitsSigned_eq, decide_eq_false hv])]
  rfl

/-! ## The bits of an insert -/

theorem fieldReplaced_insertField (word value : Word) {width lsb : Nat} (h : width + lsb ≤ 64) :
    fieldReplaced word width lsb value (insertField word width lsb value) :=
  fun _ hi => getLsbD_insertField word value h hi

/-- An insert uses the low bits of the value alone. -/
theorem insertField_congr (word : Word) {v1 v2 : Word} {width : Nat} (lsb : Nat) (h : v1.setWidth width = v2.setWidth width) :
    insertField word width lsb v1 = insertField word width lsb v2 := by
  rw [insertField, insertField, h]

/-- Bits outside the field are the word's. -/
theorem getLsbD_insertField_outside (word value : Word) {width lsb : Nat} (h : width + lsb ≤ 64) {i : Nat} (hi : i < 64)
    (hout : ¬ (lsb ≤ i ∧ i < lsb + width)) : (insertField word width lsb value).getLsbD i = word.getLsbD i := by
  rw [getLsbD_insertField word value h hi, if_neg hout]

/-- The later insert into a field overwrites the earlier one. -/
theorem insertField_insertField_same (word v1 v2 : Word) {width lsb : Nat} (h : width + lsb ≤ 64) :
    insertField (insertField word width lsb v1) width lsb v2 = insertField word width lsb v2 := by
  apply BitVec.eq_of_getLsbD_eq
  intro i hi
  rw [getLsbD_insertField _ v2 h hi, getLsbD_insertField word v2 h hi]
  split
  · rfl
  · next hout => exact getLsbD_insertField_outside word v1 h hi hout

/-- Inserts into disjoint fields commute: no bit lies in both fields. -/
theorem insertField_comm (word v1 v2 : Word) {w1 l1 w2 l2 : Nat} (h1 : w1 + l1 ≤ 64) (h2 : w2 + l2 ≤ 64)
    (hd : w1 = 0 ∨ w2 = 0 ∨ l1 + w1 ≤ l2 ∨ l2 + w2 ≤ l1) :
    insertField (insertField word w1 l1 v1) w2 l2 v2 = insertField (insertField word w2 l2 v2) w1 l1 v1 := by
  apply BitVec.eq_of_getLsbD_eq
  intro i hi
  simp only [getLsbD_insertField _ _ h1 hi, getLsbD_insertField _ _ h2 hi]
  by_cases hin : l1 ≤ i ∧ i < l1 + w1
  · rw [if_pos hin, if_pos hin, if_neg (by omega)]
  · rw [if_neg hin, if_neg hin]

/-- Inserting what the field already holds gives the word back. -/
theorem insertField_eq_self (word : Word) {value : Word} {width lsb : Nat} (h : width + lsb ≤ 64)
    (hv : value.setWidth width = word.extractLsb' lsb width) : insertField word width lsb value = word := by
  apply BitVec.eq_of_getLsbD_eq
  intro i hi
  rw [getLsbD_insertField word value h hi]
  split
  · next hin =>
    have hbit := congrArg (BitVec.getLsbD · (i - lsb)) hv
    have hlt : i - lsb < width := by omega
    simpa [hlt, Nat.add_sub_cancel' hin.1] using hbit
  · rfl

/-! ## The value of an insert -/

/-- A word is its bits below a field, the field, and its bits above, each at its weight. -/
theorem toNat_eq_below_field_above (word : Word) {width lsb : Nat} (h : width + lsb ≤ 64) :
    word.toNat = (word.extractLsb' 0 lsb).toNat + 2 ^ lsb * (word.extractLsb' lsb width).toNat +
      2 ^ (lsb + width) * (word.extractLsb' (lsb + width) (64 - (lsb + width))).toNat := by
  have htop : word.toNat / 2 ^ (lsb + width) < 2 ^ (64 - (lsb + width)) := by
    rw [Nat.div_lt_iff_lt_mul (by positivity), ← pow_add, Nat.sub_add_cancel (by omega)]
    exact word.isLt
  simp only [BitVec.extractLsb'_toNat, Nat.shiftRight_eq_div_pow, pow_zero, Nat.div_one, Nat.mod_eq_of_lt htop]
  rw [← Nat.mod_mul, ← pow_add, Nat.mod_add_div]

/-- An insert takes the field's old value out of the word and puts the new one in (R121 (6)). -/
theorem toNat_insertField_add (word value : Word) {width lsb : Nat} (h : width + lsb ≤ 64) :
    (insertField word width lsb value).toNat + 2 ^ lsb * (word.extractLsb' lsb width).toNat =
      word.toNat + 2 ^ lsb * (value.setWidth width).toNat := by
  rw [toNat_eq_below_field_above (insertField word width lsb value) h, toNat_eq_below_field_above word h,
    field_insertField_disjoint word value h (by omega) (by omega), field_insertField_same word value h,
    field_insertField_disjoint word value h (by omega) (by omega)]
  omega

/-! ## Values that fit -/

/-- The low bits of a value as a number: its two's-complement reading modulo `2^width`. -/
theorem ofInt_toInt_emod (value : Word) {width : Nat} (h : width ≤ 64) :
    BitVec.ofInt 64 (value.toInt % 2 ^ width) = (value.setWidth width).setWidth 64 := by
  have hmod : value.toInt % 2 ^ width = ((value.setWidth width).toNat : Int) := by
    rw [← Int.emod_emod_of_dvd value.toInt (pow_dvd_pow 2 h), toInt_emod_two_pow, BitVec.toNat_setWidth]
    norm_cast
  rw [hmod, BitVec.ofInt_natCast, BitVec.ofNat_toNat]

/-- A zero-extended field fits its width. -/
theorem toNat_setWidth_lt {width : Nat} (f : BitVec width) (h : width ≤ 64) : (f.setWidth 64).toNat < 2 ^ width := by
  rw [BitVec.toNat_setWidth_of_le h]
  exact f.isLt

/-- Zero-extending a field keeps its bits. -/
theorem setWidth_setWidth_eq_self {width : Nat} (f : BitVec width) (h : width ≤ 64) : (f.setWidth 64).setWidth width = f := by
  rw [BitVec.setWidth_setWidth_of_le f h, BitVec.setWidth_eq]

/-- Sign-extending a field keeps its bits. -/
theorem setWidth_signExtend_eq_self {width : Nat} (f : BitVec width) (h : width ≤ 64) :
    (f.signExtend 64).setWidth width = f := by
  apply BitVec.eq_of_getLsbD_eq
  intro i hi
  have h64 : i < 64 := by omega
  rw [BitVec.getLsbD_setWidth, BitVec.getLsbD_signExtend]
  simp [hi, h64]

/-- A value that is not negative and fits as signed fits as unsigned. -/
theorem toNat_lt_of_toInt_nonneg {value : Word} {width : Nat} (hpos : 0 ≤ value.toInt)
    (hle : value.toInt ≤ 2 ^ (width - 1) - 1) : value.toNat < 2 ^ width := by
  have hread : value.toInt = value.toNat := BitVec.toInt_eq_toNat_of_msb (by rw [BitVec.msb_eq_toInt]; simpa using hpos)
  have hhalf : (2 : Int) ^ (width - 1) ≤ 2 ^ width := pow_le_pow_right₀ (by norm_num) (Nat.sub_le _ _)
  have hlt : (value.toNat : Int) < 2 ^ width := by omega
  exact_mod_cast hlt

end Sys2Proof.Machine

namespace Sys2Proof.Proofs

open Sys2Proof.Machine Sys2Proof.Safety Sys2Proof.Claims

/-! ## Inserts -/

/-- Settles O5: the answer is `insertField`, and Overflow is an exception that leaves `FATAL` as it is. -/
theorem setuReplacesTheFieldOrOverflows : Obligations.SetuReplacesTheFieldOrOverflows :=
  fun word value _ _ _ hs =>
    ⟨fun h hv => ⟨_, exec_of_ok hs (opSetu_ok word h hv), fieldReplaced_insertField word value h⟩,
      fun h hv => exec_of_overflow hs (opSetu_overflow word h hv),
      fun h => exec_of_violates hs (congrArg (!·) (legalDescriptor_eq_false_iff.mpr h))⟩

/-- Settles O6: as SETU, with the signed range, which is empty at width 0. -/
theorem setsReplacesTheFieldOrOverflows : Obligations.SetsReplacesTheFieldOrOverflows :=
  fun word value _ _ _ hs =>
    ⟨fun h hv => ⟨_, exec_of_ok hs (opSets_ok word h hv), fieldReplaced_insertField word value h⟩,
      fun h hv => exec_of_overflow hs (opSets_overflow word h hv),
      fun h => exec_of_violates hs (congrArg (!·) (legalDescriptor_eq_false_iff.mpr h))⟩

/-! ## The laws of the inserts -/

/-- Settles O10: each law is the one of `insertField`; what is read from a field always fits it. -/
theorem unsignedInsertionObeysItsSixLaws : Obligations.UnsignedInsertionObeysItsSixLaws := by
  refine ⟨fun w v n l h hv => ⟨_, setUnsigned_ok w v h hv, ?readBack,
      fun i hi hout => getLsbD_insertField_outside w v h hi hout, fun v2 hv2 => ?overwrite⟩,
    fun w v1 v2 n1 l1 n2 l2 h1 h2 hv1 hv2 hd => ⟨_, _, _, setUnsigned_ok w v1 h1 hv1, setUnsigned_ok _ v2 h2 hv2,
      setUnsigned_ok w v2 h2 hv2, ?commute⟩,
    fun w n l h => ⟨_, getUnsigned_ok w h, ?restore⟩,
    fun w v n l h hv => ⟨_, _, setUnsigned_ok w v h hv, getUnsigned_ok w h, ?arithmetic⟩⟩
  case readBack => rw [getUnsigned_ok _ h, field_insertField_same w v h, setWidth_setWidth_eq_self_of_lt hv]
  case overwrite => rw [setUnsigned_ok _ v2 h hv2, setUnsigned_ok w v2 h hv2, insertField_insertField_same w v v2 h]
  case commute => rw [setUnsigned_ok _ v1 h1 hv1, insertField_comm w v1 v2 h1 h2 hd]
  case restore =>
    have hn : n ≤ 64 := by omega
    rw [setUnsigned_ok w _ h (toNat_setWidth_lt _ hn), insertField_eq_self w h (setWidth_setWidth_eq_self _ hn)]
  case arithmetic =>
    have hsum := toNat_insertField_add w v h
    rw [BitVec.toNat_setWidth, Nat.mod_eq_of_lt hv] at hsum
    rw [BitVec.toNat_setWidth_of_le (by omega)]
    have : ((insertField w n l v).toNat : Int) + 2 ^ l * (w.extractLsb' l n).toNat = w.toNat + 2 ^ l * v.toNat := by
      exact_mod_cast hsum
    linarith

/-- Settles O11: SETS writes the word SETU writes for the low bits of the value. -/
theorem signedInsertionObeysItsFiveLaws : Obligations.SignedInsertionObeysItsFiveLaws := by
  refine ⟨fun w v n l h hv => ⟨_, setSigned_of_inSignedRange w h hv, ?readBack,
      fun i hi hout => getLsbD_insertField_outside w v h hi hout, ?toSetu⟩,
    fun w n l hpos h => ⟨_, getSigned_ok w h, ?restore⟩,
    fun w v n l hpos h h0 hle => ⟨_, setSigned_of_inSignedRange w h ⟨hpos, ?lower, hle⟩,
      setUnsigned_ok w v h (toNat_lt_of_toInt_nonneg h0 hle)⟩⟩
  case readBack =>
    rw [getSigned_ok _ h, field_insertField_same w v h, (signExtend_setWidth_eq_self_iff v hv.1 (by omega)).mpr hv]
  case toSetu =>
    have hn : n ≤ 64 := by omega
    rw [ofInt_toInt_emod v hn, setUnsigned_ok w _ h (toNat_setWidth_lt _ hn),
      insertField_congr w l (setWidth_setWidth_eq_self (v.setWidth n) hn)]
  case restore =>
    have hn : n ≤ 64 := by omega
    rw [setSigned_of_inSignedRange w h (inSignedRange_signExtend _ hpos hn),
      insertField_eq_self w h (setWidth_signExtend_eq_self _ hn)]
  case lower =>
    have : (0 : Int) < 2 ^ (n - 1) := by positivity
    omega

end Sys2Proof.Proofs
end

/-! # The codeword family (42_codeword.md)

A codeword is the join of its six fields (R141) and of its four bytes (R41): joining is addition at the weights of the parts, and
slicing a join gives the parts back. PACK's inserts act on disjoint fields, so their order cannot be seen (R148); a record whose `a`
does not fit is what a bright block quantizes to (R150). -/
section

namespace Sys2Proof.Machine

open Sys2Proof.Safety Sys2Proof.Claims

variable {R : Type}

/-! ## Joining and slicing -/

/-- A join as a number: the high part at the weight of the low part's width. -/
theorem toNat_append_eq_add {m n : Nat} (x : BitVec m) (y : BitVec n) : (x ++ y).toNat = x.toNat * 2 ^ n + y.toNat := by
  rw [BitVec.toNat_append, ← Nat.shiftLeft_add_eq_or_of_lt y.isLt, Nat.shiftLeft_eq]

/-- A slice as a quotient and a remainder. -/
theorem setWidth_extractLsb'_eq_ofNat (cw : Codeword) (lsb width : Nat) :
    (cw.extractLsb' lsb width).setWidth 64 = BitVec.ofNat 64 (cw.toNat / 2 ^ lsb % 2 ^ width) := by
  apply BitVec.eq_of_toNat_eq
  rw [BitVec.toNat_setWidth, BitVec.extractLsb'_toNat, Nat.shiftRight_eq_div_pow, BitVec.toNat_ofNat]

/-- The bytes of a codeword, joined in stream order, are the codeword (20_memory.md R41). -/
theorem append_serialize (cw : Codeword) :
    (serialize cw).b0 ++ (serialize cw).b1 ++ (serialize cw).b2 ++ (serialize cw).b3 = cw := by
  simp only [serialize]
  iterate 3 rw [BitVec.extractLsb'_append_extractLsb'_eq_extractLsb' (by rfl)]
  exact BitVec.extractLsb'_eq_self

/-- Zero-extending a codeword leaves its fields where they are, so that an extract reads them (R144). -/
theorem getUnsigned_setWidth (cw : Codeword) {width lsb : Nat} (h : width + lsb ≤ 64) :
    getUnsigned (cw.setWidth 64) width lsb = .ok ((cw.extractLsb' lsb width).setWidth 64) := by
  rw [getUnsigned_ok _ h, BitVec.extractLsb'_setWidth_of_le (by omega)]

theorem getSigned_setWidth (cw : Codeword) {width lsb : Nat} (h : width + lsb ≤ 64) :
    getSigned (cw.setWidth 64) width lsb = .ok ((cw.extractLsb' lsb width).signExtend 64) := by
  rw [getSigned_ok _ h, BitVec.extractLsb'_setWidth_of_le (by omega)]

/-- The range of the signed fields `b`, `c`, `d` (R141). -/
theorem inSignedRange_six (v : Int) : inSignedRange v 6 ↔ -32 ≤ v ∧ v ≤ 31 := by
  unfold inSignedRange
  omega

/-! ## The closed forms of R142 to R145 -/

theorem packed_eq_codewordOf {r : Record} (h : recordFits r) : packed r = codewordOf r := by
  obtain ⟨ha, -, -, -, hp, hq⟩ := h
  have hlow (v : Word) : (v.toInt % 64).toNat = v.toNat % 64 := by
    rw [BitVec.toInt_eq_toNat_cond]
    omega
  apply BitVec.eq_of_toNat_eq
  rw [codewordOf, hlow, hlow, hlow, BitVec.toNat_ofNat, packed]
  simp only [toNat_append_eq_add, BitVec.toNat_setWidth]
  omega

theorem unpack_eq_recordOf (cw : Codeword) : unpack cw = .ok (recordOf cw) := by
  have hcw := cw.isLt
  have htop : cw.toNat / 2 ^ 26 % 2 ^ 6 = cw.toNat / 2 ^ 26 := by omega
  rw [unpack_ok, recordOf, setWidth_extractLsb'_eq_ofNat cw 26 6, setWidth_extractLsb'_eq_ofNat cw 4 4,
    setWidth_extractLsb'_eq_ofNat cw 0 4, htop, pow_zero, Nat.div_one]

theorem serialize_eq_bytesOf (cw : Codeword) : serialize cw = bytesOf cw := by
  simp only [serialize, bytesOf, BitVec.extractLsb', Nat.shiftRight_eq_div_pow, pow_zero, Nat.div_one]

theorem append_eq_joined (b : StreamBytes) : b.b0 ++ b.b1 ++ b.b2 ++ b.b3 = joined b := by
  apply BitVec.eq_of_toNat_eq
  rw [joined, BitVec.toNat_ofNat]
  simp only [toNat_append_eq_add]
  omega

theorem deserialize_eq_joined (b : StreamBytes) {n : Nat} (h : 4 ≤ n) : deserialize b n = .ok (joined b) := by
  rw [deserialize_ok b h, append_eq_joined]

/-! ## The outcomes of PACK, UNPACK, SER, DESER -/

theorem opPack_ok {r : Record} (h : recordFits r) : opPack (R := R) r = .ok (.cw (codewordOf r)) := by
  rw [opPack, pack_ok h, packed_eq_codewordOf h]
  rfl

theorem opPack_overflow {r : Record} (h : ¬ recordFits r) : opPack (R := R) r = .error .overflow := by
  rw [opPack, pack_overflow h]
  rfl

theorem opUnpack_ok (cw : Codeword) : opUnpack (R := R) cw = .ok (.record (recordOf cw)) := by
  rw [opUnpack, unpack_eq_recordOf]
  rfl

theorem opSer_ok (cw : Codeword) : opSer (R := R) cw = .ok (.bytes (bytesOf cw)) := by
  rw [opSer, serialize_eq_bytesOf]

theorem opDeser_ok (b : StreamBytes) {n : Nat} (h : 4 ≤ n) : opDeser (R := R) b n = .ok (.cw (joined b)) := by
  rw [opDeser, deserialize_eq_joined b h]
  rfl

theorem opDeser_incomplete (b : StreamBytes) {n : Nat} (h : n < 4) : opDeser (R := R) b n = .error .incompleteWord := by
  rw [opDeser, deserialize_incomplete b h]
  rfl

/-! ## The round trips (R144, R146, R147) -/

/-- What UNPACK answers fits again: each field is read from as many bits as it is inserted into. -/
theorem recordFits_recordOf (cw : Codeword) : recordFits (recordOf cw) := by
  have hcw := cw.isLt
  have range (f : BitVec 6) : -32 ≤ (f.signExtend 64).toInt ∧ (f.signExtend 64).toInt ≤ 31 :=
    (inSignedRange_six _).mp (inSignedRange_signExtend f (by omega) (by omega))
  refine ⟨?_, range _, range _, range _, ?_, ?_⟩ <;> simp only [recordOf, BitVec.toNat_ofNat] <;> omega

/-- Unpacking the join of the six fields gives each field back, extended. -/
theorem unpack_packed (r : Record) :
    unpack (packed r) = .ok
      { a := (r.a.setWidth 6).setWidth 64
        b := (r.b.setWidth 6).signExtend 64
        c := (r.c.setWidth 6).signExtend 64
        d := (r.d.setWidth 6).signExtend 64
        pbAvg := (r.pbAvg.setWidth 4).setWidth 64
        prAvg := (r.prAvg.setWidth 4).setWidth 64 } := by
  rw [unpack_ok, packed]
  simp only [BitVec.extractLsb'_append_eq_of_le, BitVec.extractLsb'_append_eq_right, BitVec.extractLsb'_eq_self,
    Nat.reduceLeDiff, Nat.reduceSub, le_refl, Nat.sub_self]

theorem unpack_packed_of_recordFits {r : Record} (h : recordFits r) : unpack (packed r) = .ok r := by
  obtain ⟨ha, hb, hc, hd, hp, hq⟩ := h
  have signed {v : Word} (hv : -32 ≤ v.toInt ∧ v.toInt ≤ 31) : (v.setWidth 6).signExtend 64 = v :=
    (signExtend_setWidth_eq_self_iff v (by omega) (by omega)).mpr ((inSignedRange_six _).mpr hv)
  rw [unpack_packed, signed hb, signed hc, signed hd, setWidth_setWidth_eq_self_of_lt (by omega),
    setWidth_setWidth_eq_self_of_lt (by omega), setWidth_setWidth_eq_self_of_lt (by omega)]

/-- Joining the fields UNPACK answers gives the codeword back. -/
theorem packed_of_unpack {cw : Codeword} {r : Record} (h : unpack cw = .ok r) : packed r = cw := by
  obtain rfl := Except.ok.inj ((unpack_ok cw).symm.trans h)
  simp only [packed]
  rw [setWidth_setWidth_eq_self _ (by omega), setWidth_signExtend_eq_self _ (by omega), setWidth_signExtend_eq_self _ (by omega),
    setWidth_signExtend_eq_self _ (by omega), setWidth_setWidth_eq_self _ (by omega), setWidth_setWidth_eq_self _ (by omega)]
  iterate 5 rw [BitVec.extractLsb'_append_extractLsb'_eq_extractLsb' (by rfl)]
  exact BitVec.extractLsb'_eq_self

/-! ## A list of inserts (R148) -/

/-- The value of an insert lies in the range of its field. -/
def callFits (k : InsertCall) : Prop :=
  if k.signed then inSignedRange k.value.toInt k.width else k.value.toNat < 2 ^ k.width

/-- The word an insert leaves when its value fits. -/
def insertCall (w : Word) (k : InsertCall) : Word := insertField w k.width k.lsb k.value

theorem issue_ok (w : Word) {k : InsertCall} (legal : k.width + k.lsb ≤ 64) (fits : callFits k) :
    issue w k = .ok (insertCall w k) := by
  unfold callFits at fits
  unfold issue
  split at fits
  · next hk => rw [if_pos hk, setSigned_of_inSignedRange w legal fits, insertCall]
  · next hk => rw [if_neg hk, setUnsigned_ok w k.value legal fits, insertCall]

theorem issue_overflow (w : Word) {k : InsertCall} (legal : k.width + k.lsb ≤ 64) (bad : ¬ callFits k) :
    issue w k = .error .overflow := by
  unfold callFits at bad
  unfold issue
  split at bad
  · next hk => rw [if_pos hk, setSigned_overflow w k.value legal (by rw [fitsSigned_eq, decide_eq_false bad])]
  · next hk => rw [if_neg hk, setUnsigned_overflow w k.value legal (Nat.le_of_not_lt bad)]

/-- Inserts whose values all fit leave the word with every field replaced in turn. -/
theorem foldlM_issue_ok {calls : List InsertCall} (legal : ∀ k ∈ calls, k.width + k.lsb ≤ 64)
    (fits : ∀ k ∈ calls, callFits k) (w : Word) : calls.foldlM issue w = .ok (calls.foldl insertCall w) := by
  induction calls generalizing w with
  | nil => rfl
  | cons k ks ih =>
    rw [List.forall_mem_cons] at legal fits
    rw [List.foldlM_cons, issue_ok w legal.1 fits.1]
    exact ih legal.2 fits.2 _

/-- Inserts of which one does not fit end in Overflow, wherever it stands. -/
theorem foldlM_issue_overflow {calls : List InsertCall} (legal : ∀ k ∈ calls, k.width + k.lsb ≤ 64)
    (bad : ¬ ∀ k ∈ calls, callFits k) (w : Word) : calls.foldlM issue w = .error .overflow := by
  induction calls generalizing w with
  | nil => exact absurd (List.forall_mem_nil _) bad
  | cons k ks ih =>
    rw [List.forall_mem_cons] at legal bad
    rw [List.foldlM_cons]
    by_cases hk : callFits k
    · rw [issue_ok w legal.1 hk]
      exact ih legal.2 (fun hks => bad ⟨hk, hks⟩) _
    · rw [issue_overflow w legal.1 hk]
      rfl

/-- An insert below bit `n` leaves a word below `2^n` below it. -/
theorem toNat_insertField_lt {word : Word} (value : Word) {width lsb n : Nat} (h : width + lsb ≤ 64) (hn : lsb + width ≤ n)
    (hw : word.toNat < 2 ^ n) : (insertField word width lsb value).toNat < 2 ^ n := by
  refine Nat.lt_pow_two_of_testBit _ fun i hi => ?_
  rw [BitVec.testBit_toNat]
  rcases Nat.lt_or_ge i 64 with h64 | h64
  · rw [getLsbD_insertField_outside word value h h64 (by omega), ← BitVec.testBit_toNat]
    exact Nat.testBit_lt_two_pow (Nat.lt_of_lt_of_le hw (Nat.pow_le_pow_right (by omega) hi))
  · exact BitVec.getLsbD_of_ge _ i h64

/-! ## PACK's six inserts -/

theorem insertCalls_below {r : Record} : ∀ k ∈ insertCalls r, k.lsb + k.width ≤ 32 := by
  simp [insertCalls]

/-- The six values fit exactly when the record does (R142). -/
theorem insertCalls_fit_iff (r : Record) : (∀ k ∈ insertCalls r, callFits k) ↔ recordFits r := by
  simp [insertCalls, callFits, inSignedRange_six, Nat.lt_succ_iff]

/-- Any two of the six inserts are the same one, or are at disjoint fields. -/
theorem insertCalls_eq_or_disjoint {r : Record} :
    ∀ j ∈ insertCalls r, ∀ k ∈ insertCalls r, j = k ∨ j.lsb + j.width ≤ k.lsb ∨ k.lsb + k.width ≤ j.lsb := by
  simp [insertCalls]

/-- The order of the six inserts cannot be seen. -/
theorem foldl_insertCall_perm {r : Record} {calls : List InsertCall} (hp : calls.Perm (insertCalls r)) (w : Word) :
    calls.foldl insertCall w = (insertCalls r).foldl insertCall w := by
  refine hp.foldl_eq' (fun j hj k hk w => ?_) w
  have bj := insertCalls_below j (hp.mem_iff.mp hj)
  have bk := insertCalls_below k (hp.mem_iff.mp hk)
  rcases insertCalls_eq_or_disjoint j (hp.mem_iff.mp hj) k (hp.mem_iff.mp hk) with rfl | apart
  · rfl
  · exact insertField_comm w j.value k.value (by omega) (by omega) (.inr (.inr apart))

/-- The six inserts leave the high half at 0. -/
theorem toNat_foldl_insertCall_lt {calls : List InsertCall} (below : ∀ k ∈ calls, k.lsb + k.width ≤ 32) {w : Word}
    (hw : w.toNat < 2 ^ 32) : (calls.foldl insertCall w).toNat < 2 ^ 32 :=
  List.foldlRecOn (motive := fun v : Word => v.toNat < 2 ^ 32) calls insertCall hw fun v hv k hk =>
    toNat_insertField_lt k.value (by have := below k hk; omega) (below k hk) hv

/-- The word the six inserts leave is the codeword as a number. -/
theorem toNat_foldl_insertCalls (r : Record) : ((insertCalls r).foldl insertCall 0).toNat = (packed r).toNat := by
  have hlow : trunc32 ((insertCalls r).foldl insertCall 0) = packed r := trunc32_inserts r
  rw [← hlow, trunc32, BitVec.toNat_setWidth,
    Nat.mod_eq_of_lt (toNat_foldl_insertCall_lt insertCalls_below (by decide))]

/-! ## Bright blocks (R150, R198), under `NUM_EXACT` -/

/-- `quant_a` in plain arithmetic (44_block.md R188). -/
theorem quantA_eq_quantizedA (a : Rat) : quantA Num.exact a = quantizedA a := by
  have hpos : 0 ≤ max 0 (min 1 a) * 511 := by positivity
  simp only [quantA, quantizedA, exact_zero, exact_one, exact_aScale, exact_mul, exact_clamp a zero_le_one,
    exact_roundNearest hpos]

/-- From 127/1022 up, `a` is 64 or more. -/
theorem le_toNat_quantizedA {a : Rat} (h : 127 / 1022 ≤ a) : 64 ≤ (quantizedA a).toNat := by
  have hlo : (127 / 1022 : Rat) ≤ max 0 (min 1 a) := le_max_of_le_right (le_min (by norm_num) h)
  have hhi : max 0 (min 1 a) ≤ 1 := max_le zero_le_one (min_le_left 1 a)
  have hfloor : 64 ≤ ⌊max 0 (min 1 a) * 511 + 1 / 2⌋ := Int.le_floor.mpr (by push_cast; linarith)
  have hceil : ⌊max 0 (min 1 a) * 511 + 1 / 2⌋ < 512 := Int.floor_lt.mpr (by push_cast; linarith)
  rw [quantizedA, BitVec.toNat_ofInt]
  omega

/-- A block of mean luma 127/1022 or more does not pack: `a` is too large for its field. -/
theorem pack_bfwd_of_bright {p : Params Rat} {b : Block Rat} (hnum : p.num = Num.exact)
    (h : 127 / 1022 ≤ (b.s1.x0 + b.s2.x0 + b.s3.x0 + b.s4.x0) / 4) : pack (bfwd p b) = .error .overflow := by
  have ha : (bfwd p b).a = quantizedA ((b.s1.x0 + b.s2.x0 + b.s3.x0 + b.s4.x0) / 4) := by
    rw [← quantA_eq_quantizedA]
    simp [bfwd, butterfly, luma, hnum]
  refine pack_overflow fun ⟨hle, _⟩ => ?_
  have hge := le_toNat_quantizedA h
  rw [← ha] at hge
  omega

/-- The three coefficients of the luma row sum to 1 (43_color.md R171). -/
theorem luma_rgbToYcc_grey (t : Rat) : (rgbToYcc Num.exact ⟨t, t, t⟩).x0 = t := by
  show 299 / 1000 * t + 587 / 1000 * t + 114 / 1000 * t = t
  ring

/-- CBLK ends in Overflow where its PACK does (45_pipeline.md R215). -/
theorem opCblk_overflow {p : Params R} {b : Block R}
    (h : pack (bfwd p (mapBlock (rgbToYcc p.num) b)) = .error .overflow) : opCblk p b = .error .overflow := by
  simp only [opCblk, cblk, h]
  rfl

end Sys2Proof.Machine

namespace Sys2Proof.Proofs

open Sys2Proof.Machine Sys2Proof.Safety Sys2Proof.Claims

/-- Settles O14: joining the fields is the sum of R142, the fields standing at their weights. -/
theorem packAnswersTheCodewordOrOverflows : Obligations.PackAnswersTheCodewordOrOverflows :=
  fun _ _ hs => ⟨fun h => exec_of_ok hs (opPack_ok h), fun h => exec_of_overflow hs (opPack_overflow h)⟩

/-- Settles O15, from UNPACK's outcome; what is read from a field always fits it. -/
theorem unpackAnswersARecordForEveryCodeword : Obligations.UnpackAnswersARecordForEveryCodeword :=
  fun cw _ hs => ⟨exec_of_ok hs (opUnpack_ok cw), recordFits_recordOf cw⟩

/-- Settles O16: the four bytes are slices of the codeword, and joined they are all of it. -/
theorem serEmitsTheMostSignificantByteFirst : Obligations.SerEmitsTheMostSignificantByteFirst := by
  refine fun cw s hs => ⟨exec_of_ok hs (opSer_ok cw), ?_⟩
  rw [← append_eq_joined, ← serialize_eq_bytesOf, append_serialize]

/-- Settles O17, from DESER's two outcomes; IncompleteWord is an exception that leaves `FATAL` as it is. -/
theorem deserJoinsFourBytesOrIsIncomplete : Obligations.DeserJoinsFourBytesOrIsIncomplete :=
  fun b n _ hs =>
    ⟨fun h => exec_of_ok hs (opDeser_ok b h), fun h => exec_of_error hs (i := .deser b n) (opDeser_incomplete b h)⟩

/-- Settles O18: slicing a join gives the parts, and joining the slices gives the whole. -/
theorem packUnpackAndSerDeserAreInverse : Obligations.PackUnpackAndSerDeserAreInverse := by
  refine ⟨fun r h => ⟨_, pack_ok h, unpack_packed_of_recordFits h⟩,
    fun cw => ⟨_, unpack_eq_recordOf cw, recordFits_recordOf cw, ?_⟩, fun cw => ?_,
    fun b => ⟨_, deserialize_ok b le_rfl, serialize_append b.b0 b.b1 b.b2 b.b3⟩⟩
  · rw [pack_ok (recordFits_recordOf cw), packed_of_unpack (unpack_eq_recordOf cw)]
  · rw [deserialize_ok _ le_rfl, append_serialize]

/-- Settles O19: inserts at disjoint fields commute, and one that does not fit overflows wherever it stands. -/
theorem packEqualsItsSixInsertsInAnyOrder : Obligations.PackEqualsItsSixInsertsInAnyOrder := by
  refine ⟨fun r calls hp => ?_, fun cw => ⟨_, unpack_ok cw, getUnsigned_setWidth cw (by omega),
    getSigned_setWidth cw (by omega), getSigned_setWidth cw (by omega), getSigned_setWidth cw (by omega),
    getUnsigned_setWidth cw (by omega), getUnsigned_setWidth cw (by omega)⟩⟩
  have legal : ∀ k ∈ calls, k.width + k.lsb ≤ 64 := fun k hk => by
    have := insertCalls_below k (hp.mem_iff.mp hk)
    omega
  have fits_iff : (∀ k ∈ calls, callFits k) ↔ recordFits r := by
    simp only [← insertCalls_fit_iff, hp.mem_iff]
  refine ⟨fun h => ⟨_, _, foldlM_issue_ok legal (fits_iff.mpr h) 0, pack_ok h, ?_⟩,
    fun h => ⟨foldlM_issue_overflow legal (fun hall => h (fits_iff.mp hall)) 0, pack_overflow h⟩⟩
  rw [foldl_insertCall_perm hp, toNat_foldl_insertCalls]

/-- Settles O34: the rounded `a` of such a block is 64 or more, and the luma of a grey is its value. -/
theorem brightBlocksOverflow : Obligations.BrightBlocksOverflow := by
  refine ⟨fun p b => pack_bfwd_of_bright, fun t s hs ht => exec_of_overflow hs (opCblk_overflow (pack_bfwd_of_bright rfl ?_))⟩
  simp only [mapBlock, params_num, luma_rgbToYcc_grey]
  linarith

end Sys2Proof.Proofs
end

/-! # The colour family (43_color.md)

Under `NUM_EXACT` and `K_B_PR = 0` the two colour operations are the matrices `toYcc` and `toRgb` (R171, R173). Every other claim is
about these two linear maps on the cube [0,1]^3, where a row is bounded by the sums of its negative and of its positive
coefficients. -/
section

namespace Sys2Proof.Machine

open Sys2Proof.Claims

/-! ## The operations as matrices -/

theorem exact_rgbToYcc (s : Triple Rat) : rgbToYcc Num.exact s = toYcc s := by
  simp only [rgbToYcc, toYcc, Num.exact, Triple.mk.injEq]
  norm_num

theorem params_yccToRgb (s : Triple Rat) : yccToRgb Config.params s = toRgb s := by
  simp only [yccToRgb, toRgb, params_num, params_kBPr, Num.exact, Triple.mk.injEq]
  norm_num

theorem opRgb2ycc_ok (s : Triple Rat) : opRgb2ycc Config.params s = .ok (.sample (toYcc s)) := by
  rw [opRgb2ycc, params_num, exact_rgbToYcc]

theorem opYcc2rgb_ok (s : Triple Rat) : opYcc2rgb Config.params s = .ok (.sample (toRgb s)) := by
  rw [opYcc2rgb, params_yccToRgb]

/-! ## The forward matrix on greys and on the unit cube (R171) -/

/-- The luma row sums to 1 and each chroma row to 0. -/
theorem toYcc_grey (t : Rat) : toYcc ⟨t, t, t⟩ = ⟨t, 0, 0⟩ := by
  simp only [toYcc, Triple.mk.injEq]
  refine ⟨?_, ?_, ?_⟩ <;> ring

/-- On the cube luma stays in [0,1] and both chromas in [-0.5,0.5]: the negative and the positive coefficients of a row sum to its
bounds. -/
theorem toYcc_range (r g b : Rat) (hr0 : 0 ≤ r) (hr1 : r ≤ 1) (hg0 : 0 ≤ g) (hg1 : g ≤ 1) (hb0 : 0 ≤ b) (hb1 : b ≤ 1) :
    0 ≤ (toYcc ⟨r, g, b⟩).x0 ∧ (toYcc ⟨r, g, b⟩).x0 ≤ 1 ∧
    -0.5 ≤ (toYcc ⟨r, g, b⟩).x1 ∧ (toYcc ⟨r, g, b⟩).x1 ≤ 0.5 ∧
    -0.5 ≤ (toYcc ⟨r, g, b⟩).x2 ∧ (toYcc ⟨r, g, b⟩).x2 ≤ 0.5 := by
  simp only [toYcc]
  refine ⟨?_, ?_, ?_, ?_, ?_, ?_⟩ <;> linarith

/-! ## The round trip (R174) -/

/-- The product of the two matrices: the identity up to the rounding of the printed coefficients. -/
theorem toRgb_toYcc (r g b : Rat) : toRgb (toYcc ⟨r, g, b⟩) =
    ⟨r - 0.000000576 * g + 0.000000576 * b,
     0.000000132096 * r + 1.000000041472 * g - 0.000000173568 * b,
     -0.000000192 * r + 0.000000192 * g + b⟩ := by
  simp only [toRgb, toYcc, Triple.mk.injEq]
  refine ⟨?_, ?_, ?_⟩ <;> ring

end Sys2Proof.Machine

namespace Sys2Proof.Proofs

open Sys2Proof.Machine Sys2Proof.Claims

/-- Settles O21: the operation is the matrix; on the cube each chroma row reaches its bounds at the corners that pick the
coefficients of one sign. -/
theorem rgbToYccIsTheForwardMatrix : Obligations.RgbToYccIsTheForwardMatrix := by
  refine ⟨fun x _ hs => exec_of_ok hs (opRgb2ycc_ok x), toYcc_grey, toYcc_range, ?extremes⟩
  norm_num [toYcc]

/-- Settles O22: the operation is the matrix, for every sample. -/
theorem yccToRgbIsTheInverseMatrix : Obligations.YccToRgbIsTheInverseMatrix :=
  fun x _ hs => exec_of_ok hs (opYcc2rgb_ok x)

/-- Settles O23: each row of the composite sums to 1, so its error is a combination of differences of components, which are at
most 1 on the cube. -/
theorem colourRoundTripIsWithinTolerance : Obligations.ColourRoundTripIsWithinTolerance := by
  intro r g b
  rw [exact_rgbToYcc, params_yccToRgb, toRgb_toYcc]
  refine ⟨rfl, fun hr0 hr1 hg0 hg1 hb0 hb1 => ⟨?red, ?green, ?blue⟩⟩
  case red =>
    have error : r - 0.000000576 * g + 0.000000576 * b - r = 0.000000576 * (b - g) := by ring
    rw [error, abs_le]
    constructor <;> linarith
  case green =>
    have error : 0.000000132096 * r + 1.000000041472 * g - 0.000000173568 * b - g =
      0.000000132096 * (r - b) + 0.000000041472 * (g - b) := by ring
    rw [error, abs_le]
    constructor <;> linarith
  case blue =>
    have error : -0.000000192 * r + 0.000000192 * g + b - b = 0.000000192 * (g - r) := by ring
    rw [error, abs_le]
    constructor <;> linarith

end Sys2Proof.Proofs
end

/-! # The block family (44_block.md)

Under `NUM_EXACT` the two butterflies are linear maps and the quantizers are floors. A rounded `a` reaches `n` exactly from
`(2n - 1)/1022` up, which gives every threshold of R188; truncation is odd, so what R189 and R197 say of negative coefficients
follows from the positive ones. The error of a luma is the inverse butterfly of the errors of its four coefficients (R197). -/
section

namespace Sys2Proof.Machine

open Sys2Proof.Claims

/-! ## Rounding and truncation (R186, R187) -/

/-- `⌊x + 1/2⌋` is the integer in the half-open interval of length 1 around `x` that holds the upper end. -/
theorem floor_add_half_bounds (x : Rat) : x - 1 / 2 < ⌊x + 1 / 2⌋ ∧ (⌊x + 1 / 2⌋ : Rat) ≤ x + 1 / 2 :=
  ⟨by linarith [Int.lt_floor_add_one (x + 1 / 2)], Int.floor_le _⟩

theorem exact_roundNearest_of_neg {x : Rat} (h : x < 0) : roundNearest Num.exact x = -⌊-x + 1 / 2⌋ := by
  simp [roundNearest, exact_neg, h]

/-- Rounding `x` and `-x` are mirror images, so that the two signs need one argument. -/
theorem exact_roundNearest_neg (x : Rat) : roundNearest Num.exact (-x) = -roundNearest Num.exact x := by
  rcases lt_trichotomy x 0 with h | rfl | h
  · rw [exact_roundNearest_of_neg h, exact_roundNearest (by linarith), neg_neg]
  · rw [neg_zero, exact_roundNearest le_rfl]
    norm_num
  · rw [exact_roundNearest h.le, exact_roundNearest_of_neg (by linarith), neg_neg]

/-- From 0 up, rounding is within 1/2, and a tie goes up. -/
theorem roundNearest_of_nonneg_spec {x : Rat} (h : 0 ≤ x) :
    |(roundNearest Num.exact x : Rat) - x| ≤ 1 / 2 ∧
    (|(roundNearest Num.exact x : Rat) - x| = 1 / 2 → |x| < |(roundNearest Num.exact x : Rat)|) := by
  rw [exact_roundNearest h]
  obtain ⟨hlo, hhi⟩ := floor_add_half_bounds x
  refine ⟨abs_le.mpr ⟨by linarith, by linarith⟩, fun tie => ?_⟩
  have up : (⌊x + 1 / 2⌋ : Rat) = x + 1 / 2 := by
    rcases (abs_eq (by norm_num)).mp tie with e | e <;> linarith
  rw [up, abs_of_nonneg h]
  exact lt_of_lt_of_le (by linarith) (le_abs_self _)

/-- Rounding is within 1/2, and a tie goes away from zero. -/
theorem roundNearest_spec (x : Rat) :
    |(roundNearest Num.exact x : Rat) - x| ≤ 1 / 2 ∧
    (|(roundNearest Num.exact x : Rat) - x| = 1 / 2 → |x| < |(roundNearest Num.exact x : Rat)|) := by
  rcases le_total 0 x with h | h
  · exact roundNearest_of_nonneg_spec h
  · have mirrored := roundNearest_of_nonneg_spec (neg_nonneg.mpr h)
    rwa [exact_roundNearest_neg, Int.cast_neg, neg_sub_neg, abs_sub_comm, abs_neg, abs_neg] at mirrored

theorem exact_truncZero_eq_towardZero (x : Rat) : truncZero Num.exact x = towardZero x := exact_truncZero x

theorem towardZero_of_nonneg {x : Rat} (h : 0 ≤ x) : towardZero x = ⌊x⌋ := if_neg (not_lt.mpr h)

theorem towardZero_of_neg {x : Rat} (h : x < 0) : towardZero x = -⌊-x⌋ := if_pos h

theorem towardZero_neg (x : Rat) : towardZero (-x) = -towardZero x := by
  rcases lt_trichotomy x 0 with h | rfl | h
  · rw [towardZero_of_neg h, towardZero_of_nonneg (by linarith), neg_neg]
  · simp [towardZero]
  · rw [towardZero_of_nonneg h.le, towardZero_of_neg (by linarith), neg_neg]

theorem abs_towardZero (x : Rat) : |towardZero x| = ⌊|x|⌋ := by
  have nonneg {y : Rat} (h : 0 ≤ y) : |towardZero y| = ⌊|y|⌋ := by
    rw [towardZero_of_nonneg h, abs_of_nonneg h, abs_of_nonneg (Int.floor_nonneg.mpr h)]
  rcases le_total 0 x with h | h
  · exact nonneg h
  · rw [← abs_neg x, ← abs_neg (towardZero x), ← towardZero_neg]
    exact nonneg (neg_nonneg.mpr h)

/-! ## `quant_a` and `dequant_a` (R188, R190) -/

theorem floor_clamped_bounds (a : Rat) :
    0 ≤ ⌊max 0 (min 1 a) * 511 + 1 / 2⌋ ∧ ⌊max 0 (min 1 a) * 511 + 1 / 2⌋ ≤ 511 := by
  have hlo : (0 : Rat) ≤ max 0 (min 1 a) := le_max_left 0 _
  have hhi : max 0 (min 1 a) ≤ 1 := max_le zero_le_one (min_le_left 1 a)
  exact ⟨Int.floor_nonneg.mpr (by linarith), Int.lt_add_one_iff.mp (Int.floor_lt.mpr (by push_cast; linarith))⟩

theorem toNat_quantizedA (a : Rat) : ((quantizedA a).toNat : Int) = ⌊max 0 (min 1 a) * 511 + 1 / 2⌋ := by
  have range := floor_clamped_bounds a
  rw [quantizedA, BitVec.toNat_ofInt]
  omega

theorem toNat_quantizedA_le (a : Rat) : (quantizedA a).toNat ≤ 511 := by
  have range := floor_clamped_bounds a
  rw [← toNat_quantizedA] at range
  omega

/-- Every threshold of `quant_a` at once: `n` is reached at `t = (2n - 1)/1022`, where the clamp cannot be seen. -/
theorem le_toNat_quantizedA_iff (a : Rat) {n : Nat} {t : Rat} (h1 : 1 ≤ n) (h2 : n ≤ 511) (ht : 1022 * t = 2 * n - 1) :
    n ≤ (quantizedA a).toNat ↔ t ≤ a := by
  have hlo : (1 : Rat) ≤ n := by exact_mod_cast h1
  have hhi : (n : Rat) ≤ 511 := by exact_mod_cast h2
  have pos : ¬ t ≤ 0 := by linarith
  have le_one : t ≤ 1 := by linarith
  calc n ≤ (quantizedA a).toNat
      ↔ (n : Int) ≤ ⌊max 0 (min 1 a) * 511 + 1 / 2⌋ := by rw [← toNat_quantizedA, Int.ofNat_le]
    _ ↔ (n : Rat) ≤ max 0 (min 1 a) * 511 + 1 / 2 := by rw [Int.le_floor, Int.cast_natCast]
    _ ↔ t ≤ max 0 (min 1 a) := by constructor <;> intro h <;> linarith
    _ ↔ t ≤ a := by rw [le_max_iff, le_min_iff, or_iff_right pos, and_iff_right le_one]

/-- The thresholds R188 names. -/
theorem quantizedA_thresholds (a : Rat) :
    (a < 1 / 1022 → quantizedA a = 0) ∧ (a = 1 / 1022 → quantizedA a = 1) ∧ (1021 / 1022 ≤ a → quantizedA a = 511) ∧
    ((quantizedA a).toNat ≤ 63 ↔ a < 127 / 1022) := by
  have le_511 := toNat_quantizedA_le a
  have ge_1 : 1 ≤ (quantizedA a).toNat ↔ 1 / 1022 ≤ a := le_toNat_quantizedA_iff a (by omega) (by omega) (by norm_num)
  have ge_2 : 2 ≤ (quantizedA a).toNat ↔ 3 / 1022 ≤ a := le_toNat_quantizedA_iff a (by omega) (by omega) (by norm_num)
  have ge_64 : 64 ≤ (quantizedA a).toNat ↔ 127 / 1022 ≤ a := le_toNat_quantizedA_iff a (by omega) (by omega) (by norm_num)
  have ge_511 : 511 ≤ (quantizedA a).toNat ↔ 1021 / 1022 ≤ a := le_toNat_quantizedA_iff a (by omega) (by omega) (by norm_num)
  refine ⟨fun h => ?_, fun h => ?_, fun h => ?_, ?_⟩
  · have below := mt ge_1.mp (not_le.mpr h)
    bv_omega
  · have reached := ge_1.mpr h.ge
    have below := mt ge_2.mp (by linarith)
    bv_omega
  · have reached := ge_511.mpr h
    bv_omega
  · rw [← not_le (b := a), ← ge_64]
    omega

theorem exact_dequantA (q : Word) : dequantA Num.exact q = (q.toNat : Rat) / 511 := by simp [dequantA]

/-- Rounding is off by at most 1/2, and `a` stands for `a · 511` (R197). -/
theorem dequantA_quantA_error {a : Rat} (h0 : 0 ≤ a) (h1 : a ≤ 1) :
    |dequantA Num.exact (quantA Num.exact a) - a| ≤ 1 / 1022 := by
  have rounded : ((quantizedA a).toNat : Rat) = ⌊a * 511 + 1 / 2⌋ := by
    rw [← Int.cast_natCast, toNat_quantizedA, min_eq_right h1, max_eq_right h0]
  obtain ⟨hlo, hhi⟩ := floor_add_half_bounds (a * 511)
  rw [quantA_eq_quantizedA, exact_dequantA, rounded, abs_le]
  constructor <;> linarith

/-! ## `quant_ac` and `dequant_ac` (R189, R190) -/

theorem clamp_neg_symm {c : Rat} (h : 0 ≤ c) (x : Rat) : max (-c) (min c (-x)) = -max (-c) (min c x) := by
  rw [← min_neg_neg, ← max_neg_neg, neg_neg, max_min_distrib_left, max_eq_right (neg_le_self h)]

theorem quantAc_eq_quantizedAc (x : Rat) : quantAc Num.exact x = quantizedAc x := by
  simp only [quantAc, quantizedAc, exact_acMin, exact_acMax, exact_acScale, exact_mul, exact_truncZero_eq_towardZero,
    exact_clamp x (by norm_num : (-3 / 10 : Rat) ≤ 3 / 10)]
  norm_num

theorem abs_clamped_le (x : Rat) : |max (-0.3) (min 0.3 x) * 50| ≤ 15 := by
  have hlo : (-0.3 : Rat) ≤ max (-0.3) (min 0.3 x) := le_max_left _ _
  have hhi : max (-0.3) (min 0.3 x) ≤ 0.3 := max_le (by norm_num) (min_le_left _ x)
  rw [abs_le]
  constructor <;> linarith

theorem abs_towardZero_clamped_le (x : Rat) : |towardZero (max (-0.3) (min 0.3 x) * 50)| ≤ 15 := by
  rw [abs_towardZero]
  exact Int.floor_le_iff.mpr (lt_of_le_of_lt (abs_clamped_le x) (by norm_num))

theorem toInt_quantizedAc (x : Rat) : (quantizedAc x).toInt = towardZero (max (-0.3) (min 0.3 x) * 50) := by
  obtain ⟨hlo, hhi⟩ := abs_le.mp (abs_towardZero_clamped_le x)
  exact BitVec.toInt_ofInt_eq_self (by omega) (by omega) (by omega)

theorem toInt_quantizedAc_bounds (x : Rat) : -15 ≤ (quantizedAc x).toInt ∧ (quantizedAc x).toInt ≤ 15 := by
  rw [toInt_quantizedAc]
  exact abs_le.mp (abs_towardZero_clamped_le x)

/-- Inside ±0.3 the clamp cannot be seen. -/
theorem toInt_quantizedAc_of_abs_le {x : Rat} (h : |x| ≤ 0.3) : (quantizedAc x).toInt = towardZero (x * 50) := by
  obtain ⟨hlo, hhi⟩ := abs_le.mp h
  rw [toInt_quantizedAc, min_eq_right hhi, max_eq_right hlo]

theorem toInt_quantizedAc_neg (x : Rat) : (quantizedAc (-x)).toInt = -(quantizedAc x).toInt := by
  rw [toInt_quantizedAc, toInt_quantizedAc, clamp_neg_symm (by norm_num), neg_mul, towardZero_neg]

theorem toInt_quantizedAc_of_ge {x : Rat} (h : 0.3 ≤ x) : (quantizedAc x).toInt = 15 := by
  rw [toInt_quantizedAc, min_eq_left h, towardZero_of_nonneg (by norm_num)]
  norm_num

theorem toInt_quantizedAc_of_le {x : Rat} (h : x ≤ -0.3) : (quantizedAc x).toInt = -15 := by
  rw [← neg_neg x, toInt_quantizedAc_neg, toInt_quantizedAc_of_ge (by linarith)]

theorem toInt_quantizedAc_of_small {x : Rat} (h : |x| < 0.02) : (quantizedAc x).toInt = 0 := by
  rw [toInt_quantizedAc_of_abs_le (by linarith), ← abs_eq_zero, abs_towardZero, Int.floor_eq_zero_iff, abs_mul]
  exact ⟨by positivity, by norm_num; linarith⟩

theorem clampInt_eq_max_min (q : Int) {lo hi : Int} (h : lo ≤ hi) : clampInt q lo hi = max lo (min hi q) := by
  unfold clampInt
  split_ifs <;> omega

theorem exact_dequantAc (q : Word) : dequantAc Num.exact q = acOf q := by
  simp [dequantAc, acOf, clampInt_eq_max_min]

/-- The clamp of `dequant_ac` cannot be seen on what `quant_ac` gives. -/
theorem dequantAc_quantAc (x : Rat) : dequantAc Num.exact (quantAc Num.exact x) = (quantizedAc x).toInt / 50 := by
  obtain ⟨hlo, hhi⟩ := toInt_quantizedAc_bounds x
  rw [quantAc_eq_quantizedAc, exact_dequantAc, acOf, min_eq_right hhi, max_eq_right hlo]

theorem dequantAc_quantAc_neg (x : Rat) :
    dequantAc Num.exact (quantAc Num.exact (-x)) = -dequantAc Num.exact (quantAc Num.exact x) := by
  rw [dequantAc_quantAc, dequantAc_quantAc, toInt_quantizedAc_neg]
  push_cast
  ring

/-- Truncation of a non-negative coefficient in range (R197); a negative one follows by `dequantAc_quantAc_neg`. -/
theorem dequantAc_quantAc_bounds {x : Rat} (h0 : 0 ≤ x) (h : x ≤ 0.3) :
    0 ≤ dequantAc Num.exact (quantAc Num.exact x) ∧ dequantAc Num.exact (quantAc Num.exact x) ≤ x ∧
      x < dequantAc Num.exact (quantAc Num.exact x) + 1 / 50 := by
  have hpos : 0 ≤ x * 50 := by positivity
  have truncated : (quantizedAc x).toInt = ⌊x * 50⌋ := by
    rw [toInt_quantizedAc_of_abs_le (abs_le.mpr ⟨by linarith, h⟩), towardZero_of_nonneg hpos]
  have hlo : (0 : Rat) ≤ ⌊x * 50⌋ := Int.cast_nonneg (Int.floor_nonneg.mpr hpos)
  have hle := Int.floor_le (x * 50)
  have hlt := Int.lt_floor_add_one (x * 50)
  rw [dequantAc_quantAc, truncated]
  refine ⟨?_, ?_, ?_⟩ <;> linarith

theorem dequantAc_quantAc_bounds_of_nonpos {x : Rat} (h0 : x ≤ 0) (h : -0.3 ≤ x) :
    dequantAc Num.exact (quantAc Num.exact x) ≤ 0 ∧ x ≤ dequantAc Num.exact (quantAc Num.exact x) ∧
      dequantAc Num.exact (quantAc Num.exact x) < x + 1 / 50 := by
  obtain ⟨hlo, hle, hlt⟩ := dequantAc_quantAc_bounds (neg_nonneg.mpr h0) (by linarith)
  rw [dequantAc_quantAc_neg] at hlo hle hlt
  refine ⟨?_, ?_, ?_⟩ <;> linarith

theorem dequantAc_quantAc_error {x : Rat} (h : |x| ≤ 0.3) :
    |dequantAc Num.exact (quantAc Num.exact x) - x| < 1 / 50 := by
  obtain ⟨hmin, hmax⟩ := abs_le.mp h
  rw [abs_lt]
  rcases le_total 0 x with h0 | h0
  · obtain ⟨-, hle, hlt⟩ := dequantAc_quantAc_bounds h0 hmax
    constructor <;> linarith
  · obtain ⟨-, hle, hlt⟩ := dequantAc_quantAc_bounds_of_nonpos h0 hmin
    constructor <;> linarith

/-- Beyond ±0.3 the dequantized value is ±0.3 (R197). -/
theorem dequantAc_quantAc_error_of_saturated {x : Rat} (h : 0.3 < |x|) :
    |dequantAc Num.exact (quantAc Num.exact x) - x| = |x| - 0.3 := by
  rw [dequantAc_quantAc]
  rcases lt_abs.mp h with hx | hx
  · rw [toInt_quantizedAc_of_ge hx.le, abs_of_pos (by linarith : 0 < x), abs_of_neg (by norm_num; linarith)]
    norm_num
  · rw [toInt_quantizedAc_of_le (by linarith), abs_of_neg (by linarith : x < 0), abs_of_pos (by norm_num; linarith)]
    norm_num
    ring

/-! ## The butterflies (R191, R194, R196) -/

theorem exact_butterfly (y : Quad Rat) : butterfly Num.exact y =
    ⟨(y.q1 + y.q2 + y.q3 + y.q4) / 4, (-y.q1 - y.q2 + y.q3 + y.q4) / 4,
     (-y.q1 + y.q2 - y.q3 + y.q4) / 4, (y.q1 - y.q2 - y.q3 + y.q4) / 4⟩ := by
  simp [butterfly, exact_neg]

theorem exact_inverseButterfly (k : Quad Rat) : inverseButterfly Num.exact k =
    ⟨k.q1 - k.q2 - k.q3 + k.q4, k.q1 - k.q2 + k.q3 - k.q4, k.q1 + k.q2 - k.q3 - k.q4, k.q1 + k.q2 + k.q3 + k.q4⟩ := rfl

theorem inverseButterfly_butterfly (y : Quad Rat) : inverseButterfly Num.exact (butterfly Num.exact y) = y := by
  obtain ⟨y1, y2, y3, y4⟩ := y
  simp only [exact_butterfly, exact_inverseButterfly, Quad.mk.injEq]
  refine ⟨?_, ?_, ?_, ?_⟩ <;> ring

theorem butterfly_inverseButterfly (k : Quad Rat) : butterfly Num.exact (inverseButterfly Num.exact k) = k := by
  obtain ⟨a, b, c, d⟩ := k
  simp only [exact_butterfly, exact_inverseButterfly, Quad.mk.injEq]
  refine ⟨?_, ?_, ?_, ?_⟩ <;> ring

/-! ## BFWD and BINV (R193, R195) -/

theorem opBfwd_ok (b : Block Rat) : opBfwd Config.params b = .ok (.record (forward b)) := by
  simp only [opBfwd, bfwd, forward, params_num, exact_butterfly, luma, pbMean, prMean, exact_mean4, quantA_eq_quantizedA,
    quantAc_eq_quantizedAc]
  rfl

theorem opBinv_ok (r : Record) : opBinv Config.params r = .ok (.block (inverse r)) := by
  simp only [opBinv, binv, inverse, params_num, exact_inverseButterfly, exact_dequantA, exact_dequantAc]
  rfl

/-! ## The error of a decoded luma (R197) -/

/-- The four coefficients of a block as BINV sees them after BFWD. -/
def requantized (k : Quad Rat) : Quad Rat :=
  ⟨dequantA Num.exact (quantA Num.exact k.q1), dequantAc Num.exact (quantAc Num.exact k.q2),
   dequantAc Num.exact (quantAc Num.exact k.q3), dequantAc Num.exact (quantAc Num.exact k.q4)⟩

theorem luma_binv_bfwd {p : Params Rat} (hnum : p.num = Num.exact) (b : Block Rat) :
    luma (binv p (bfwd p b)) = inverseButterfly Num.exact (requantized (butterfly Num.exact (luma b))) := by
  simp only [luma, binv, bfwd, requantized, hnum]

/-- Each row of the inverse butterfly adds up the errors of the four coefficients. -/
theorem inverseButterfly_error {k k' : Quad Rat} {α γ : Rat} (h1 : |k'.q1 - k.q1| ≤ α) (h2 : |k'.q2 - k.q2| < γ)
    (h3 : |k'.q3 - k.q3| < γ) (h4 : |k'.q4 - k.q4| < γ) :
    |(inverseButterfly Num.exact k').q1 - (inverseButterfly Num.exact k).q1| < α + 3 * γ ∧
    |(inverseButterfly Num.exact k').q2 - (inverseButterfly Num.exact k).q2| < α + 3 * γ ∧
    |(inverseButterfly Num.exact k').q3 - (inverseButterfly Num.exact k).q3| < α + 3 * γ ∧
    |(inverseButterfly Num.exact k').q4 - (inverseButterfly Num.exact k).q4| < α + 3 * γ := by
  rw [abs_le] at h1
  rw [abs_lt] at h2 h3 h4
  simp only [exact_inverseButterfly, abs_lt]
  refine ⟨⟨?_, ?_⟩, ⟨?_, ?_⟩, ⟨?_, ?_⟩, ⟨?_, ?_⟩⟩ <;> linarith

/-- The lumas of a block whose coefficients are in range come back within the sum of the four errors. -/
theorem luma_binv_bfwd_error {p : Params Rat} {b : Block Rat} (hnum : p.num = Num.exact)
    (ha0 : 0 ≤ (butterfly Num.exact (luma b)).q1) (ha1 : (butterfly Num.exact (luma b)).q1 ≤ 1)
    (hb : |(butterfly Num.exact (luma b)).q2| ≤ 0.3) (hc : |(butterfly Num.exact (luma b)).q3| ≤ 0.3)
    (hd : |(butterfly Num.exact (luma b)).q4| ≤ 0.3) :
    |(luma (binv p (bfwd p b))).q1 - (luma b).q1| < 1 / 1022 + 3 / 50 ∧
    |(luma (binv p (bfwd p b))).q2 - (luma b).q2| < 1 / 1022 + 3 / 50 ∧
    |(luma (binv p (bfwd p b))).q3 - (luma b).q3| < 1 / 1022 + 3 / 50 ∧
    |(luma (binv p (bfwd p b))).q4 - (luma b).q4| < 1 / 1022 + 3 / 50 := by
  have error := inverseButterfly_error (k' := requantized (butterfly Num.exact (luma b))) (dequantA_quantA_error ha0 ha1)
    (dequantAc_quantAc_error hb) (dequantAc_quantAc_error hc) (dequantAc_quantAc_error hd)
  rwa [inverseButterfly_butterfly, ← luma_binv_bfwd hnum, (by norm_num : (3 * (1 / 50) : Rat) = 3 / 50)] at error

end Sys2Proof.Machine

namespace Sys2Proof.Proofs

open Sys2Proof.Machine Sys2Proof.Claims

/-- Settles O24: both operations are a floor of `x` or of `-x`; the end of the half-open interval that rounding can reach is the
one away from zero. -/
theorem roundingIsNearestAwayFromZeroAndTruncationIsTowardZero :
    Obligations.RoundingIsNearestAwayFromZeroAndTruncationIsTowardZero := by
  intro x
  obtain ⟨nearest, ties⟩ := roundNearest_spec x
  refine ⟨nearest, ties, exact_roundNearest, fun h => ?_, fun h => ?_⟩
  · rw [exact_truncZero_eq_towardZero, towardZero_of_nonneg h]
  · rw [exact_truncZero_eq_towardZero, towardZero_of_neg h]

/-- Settles O25: `quant_a` by its threshold for each value, `quant_ac` by the size of a truncation, which is odd. -/
theorem quantizersHaveTheirRangesAndThresholds : Obligations.QuantizersHaveTheirRangesAndThresholds := by
  refine ⟨fun a => ?_, fun x => ?_, fun q => ⟨exact_dequantA q, exact_dequantAc q⟩⟩
  · rw [quantA_eq_quantizedA]
    exact ⟨toNat_quantizedA a, toNat_quantizedA_le a, quantizedA_thresholds a⟩
  · rw [quantAc_eq_quantizedAc, quantAc_eq_quantizedAc]
    obtain ⟨hlo, hhi⟩ := toInt_quantizedAc_bounds x
    exact ⟨toInt_quantizedAc x, hlo, hhi, toInt_quantizedAc_of_ge, toInt_quantizedAc_of_le, toInt_quantizedAc_of_small,
      toInt_quantizedAc_neg x⟩

/-- Settles O26: the two linear maps composed either way are the identity. -/
theorem butterfliesAreExactInverses : Obligations.ButterfliesAreExactInverses :=
  ⟨inverseButterfly_butterfly, butterfly_inverseButterfly⟩

/-- Settles O27: the pseudocode of BFWD raises nothing and answers the closed form. -/
theorem bfwdAnswersTheQuantizedButterfly : Obligations.BfwdAnswersTheQuantizedButterfly :=
  fun b _ hs => exec_of_ok hs (opBfwd_ok b)

/-- Settles O28: the pseudocode of BINV raises nothing and answers the closed form. -/
theorem binvAnswersTheRecombinedBlock : Obligations.BinvAnswersTheRecombinedBlock :=
  fun r _ hs => exec_of_ok hs (opBinv_ok r)

/-- Settles O29: each coefficient has the error of its quantizer, and a luma adds up the errors of the four. -/
theorem quantizationErrorIsWithinItsBounds : Obligations.QuantizationErrorIsWithinItsBounds := by
  refine ⟨fun a => dequantA_quantA_error, fun x h => ⟨dequantAc_quantAc_error h, fun h0 => ?_, fun h0 => ?_⟩,
    fun x => dequantAc_quantAc_error_of_saturated, fun p b => luma_binv_bfwd_error⟩
  · obtain ⟨hlo, hle, -⟩ := dequantAc_quantAc_bounds h0 (abs_le.mp h).2
    exact ⟨hlo, hle⟩
  · obtain ⟨hle, hlo, -⟩ := dequantAc_quantAc_bounds_of_nonpos h0 (abs_le.mp h).1
    exact ⟨hlo, hle⟩

end Sys2Proof.Proofs
end

/-! # The pipeline family (45_pipeline.md)

CBLK and DBLK are compositions, and each has one exception to propagate: PACK's Overflow and DESER's IncompleteWord. Their outcomes
are written once with the closed forms of the codeword family, for every `Params`; the claims at the machine's `Params` put the
colour matrices and the block transforms into their closed forms. -/
section

namespace Sys2Proof.Machine

open Sys2Proof.Safety Sys2Proof.Claims

variable {R : Type}

/-! ## The outcomes of CBLK and DBLK (R215, R216) -/

theorem opCblk_ok {p : Params R} {b : Block R} (h : recordFits (bfwd p (mapBlock (rgbToYcc p.num) b))) :
    opCblk p b = .ok (.bytes (bytesOf (codewordOf (bfwd p (mapBlock (rgbToYcc p.num) b))))) := by
  simp only [opCblk, cblk, pack_ok h, packed_eq_codewordOf h, ← serialize_eq_bytesOf]
  rfl

theorem dblk_ok (p : Params R) (bs : StreamBytes) {n : Nat} (h : 4 ≤ n) :
    dblk p bs n = .ok (mapBlock (fun y => clampSample p.num (yccToRgb p y)) (binv p (recordOf (joined bs)))) := by
  simp only [dblk, deserialize_eq_joined bs h, unpack_eq_recordOf, bind, Except.bind]
  rfl

theorem dblk_incomplete (p : Params R) (bs : StreamBytes) {n : Nat} (h : n < 4) :
    dblk p bs n = .error .incompleteWord := by
  simp only [dblk, deserialize_incomplete bs h]
  rfl

theorem opDblk_ok (p : Params R) (bs : StreamBytes) {n : Nat} (h : 4 ≤ n) :
    opDblk p bs n =
      .ok (.block (mapBlock (fun y => clampSample p.num (yccToRgb p y)) (binv p (recordOf (joined bs))))) := by
  rw [opDblk, dblk_ok p bs h]
  rfl

theorem opDblk_incomplete (p : Params R) (bs : StreamBytes) {n : Nat} (h : n < 4) :
    opDblk p bs n = .error .incompleteWord := by
  rw [opDblk, dblk_incomplete p bs h]
  rfl

/-! ## At the machine's `Params`: `NUM_EXACT`, the free lookup, `K_B_PR = 0` -/

theorem params_bfwd (b : Block Rat) : bfwd Config.params b = forward b :=
  Result.record.inj (Except.ok.inj (opBfwd_ok b))

theorem params_binv (r : Record) : binv Config.params r = inverse r :=
  Result.block.inj (Except.ok.inj (opBinv_ok r))

theorem params_bfwd_mapBlock (b : Block Rat) :
    bfwd Config.params (mapBlock (rgbToYcc Config.params.num) b) =
      forward ⟨toYcc b.s1, toYcc b.s2, toYcc b.s3, toYcc b.s4⟩ := by
  simp only [params_bfwd, params_num, mapBlock, exact_rgbToYcc]

theorem exact_clampSample (s : Triple Rat) : clampSample Num.exact s = displayed s := by
  simp only [clampSample, displayed, exact_zero, exact_one, exact_clamp _ zero_le_one]

/-- Quantized AC coefficients lie in -15..15 and always fit their fields, so only `a` and the two chroma indices can be too
large (R215, Exceptions). -/
theorem recordFits_forward_iff (b : Block Rat) :
    recordFits (forward b) ↔
      (forward b).a.toNat ≤ 63 ∧ (forward b).pbAvg.toNat ≤ 15 ∧ (forward b).prAvg.toNat ≤ 15 := by
  have acFits (x : Rat) : -32 ≤ (quantizedAc x).toInt ∧ (quantizedAc x).toInt ≤ 31 := by
    obtain ⟨hlo, hhi⟩ := toInt_quantizedAc_bounds x
    omega
  exact ⟨fun ⟨ha, _, _, _, hpb, hpr⟩ => ⟨ha, hpb, hpr⟩,
    fun ⟨ha, hpb, hpr⟩ => ⟨ha, acFits _, acFits _, acFits _, hpb, hpr⟩⟩

/-! ## The clamp of DBLK, over any `NUM` -/

/-- The four samples of an answer of DBLK have each passed the clamp. -/
theorem samples_of_dblk {p : Params R} {bs : StreamBytes} {n : Nat} {b : Block R} (h : dblk p bs n = .ok b) {t : Triple R}
    (ht : t ∈ [b.s1, b.s2, b.s3, b.s4]) : ∃ z, t = clampSample p.num z := by
  obtain hn | hn := Nat.lt_or_ge n 4
  · rw [dblk_incomplete p bs hn] at h
    contradiction
  · rw [dblk_ok p bs hn] at h
    obtain rfl := Except.ok.inj h
    simp only [mapBlock, List.mem_cons, List.not_mem_nil, or_false] at ht
    obtain rfl | rfl | rfl | rfl := ht <;> exact ⟨_, rfl⟩

theorem component_clampSample_between {n : Num R} (h : n.le n.zero n.one = true) (z : Triple R) {x : R}
    (hx : x ∈ [(clampSample n z).x0, (clampSample n z).x1, (clampSample n z).x2]) :
    n.le n.zero x = true ∧ n.le x n.one = true := by
  simp only [clampSample, List.mem_cons, List.not_mem_nil, or_false] at hx
  obtain rfl | rfl | rfl := hx <;> exact clamp_between n _ h

theorem component_dblk_between {p : Params R} (hle : p.num.le p.num.zero p.num.one = true) {bs : StreamBytes} {n : Nat}
    {b : Block R} (h : dblk p bs n = .ok b) {t : Triple R} (ht : t ∈ [b.s1, b.s2, b.s3, b.s4]) {x : R}
    (hx : x ∈ [t.x0, t.x1, t.x2]) : p.num.le p.num.zero x = true ∧ p.num.le x p.num.one = true := by
  obtain ⟨z, rfl⟩ := samples_of_dblk h ht
  exact component_clampSample_between hle z hx

end Sys2Proof.Machine

namespace Sys2Proof.Proofs

open Sys2Proof.Machine Sys2Proof.Safety Sys2Proof.Claims

/-- Settles O30: the record of the transformed block packs iff the three unsigned fields fit, and CBLK is then OK. -/
theorem cblkCompressesTheBlockOrOverflows : Obligations.CblkCompressesTheBlockOrOverflows := by
  intro b s hs
  simp only [← recordFits_forward_iff]
  rw [← params_bfwd_mapBlock]
  split_ifs with h
  · exact exec_of_ok hs (opCblk_ok h)
  · exact exec_of_overflow hs (opCblk_overflow (pack_overflow h))

/-- Settles O31, from DBLK's two outcomes, the first in the closed forms of its parts. -/
theorem dblkDecompressesTheBlockOrIsIncomplete : Obligations.DblkDecompressesTheBlockOrIsIncomplete := by
  refine fun bs n s hs => ⟨fun h => exec_of_ok hs ((opDblk_ok _ bs h).trans ?_),
    fun h => exec_of_error hs (i := .dblk bs n) (opDblk_incomplete _ bs h)⟩
  simp only [params_binv, params_num, mapBlock, params_yccToRgb, exact_clampSample]

/-- Settles O32: every component has passed the clamp, which lands between 0 and 1 in the order of any `NUM`. -/
theorem dblkOutputsAreInTheUnitInterval : Obligations.DblkOutputsAreInTheUnitInterval := by
  refine ⟨fun p bs n b hnum h t ht x hx => ?_, fun R p bs n b hle h t ht x hx => component_dblk_between hle h ht hx⟩
  have between := component_dblk_between (by simp [hnum]) h ht hx
  simpa only [hnum, exact_le, exact_zero, exact_one, decide_eq_true_eq] using between

/-- Settles O33: both sides have the outcomes above, and the intermediate results are the bodies' values. -/
theorem pipelineEqualsItsSequenceOfOperations : Obligations.PipelineEqualsItsSequenceOfOperations := by
  refine ⟨fun R p b => ⟨_, _, _, _, _, rfl, rfl, rfl, rfl, rfl, ?_⟩,
    fun R p bs n h => ⟨_, _, _, _, _, _, _, opDeser_ok bs h, opUnpack_ok _, rfl, rfl, rfl, rfl, rfl, opDblk_ok p bs h⟩,
    fun R p bs n h => ⟨opDeser_incomplete bs h, opDblk_incomplete p bs h⟩⟩
  by_cases h : recordFits (bfwd p (mapBlock (rgbToYcc p.num) b))
  · exact .inr ⟨_, _, opPack_ok h, opSer_ok _, opCblk_ok h⟩
  · exact .inl ⟨opPack_overflow h, opCblk_overflow (pack_overflow h)⟩

end Sys2Proof.Proofs
end

/-! # The exceptions family (60_exceptions.md)

From `FATAL = 0` a command is answered with an exception's status exactly when its pseudocode raises that exception (R236), and
the rows of R231 are the conditions under which each instruction raises each exception. While `FATAL = 1` the answer is FATAL,
whatever the opcode and the operands. -/
section

namespace Sys2Proof.Machine

open Sys2Proof.Safety Sys2Proof.Claims

variable {R : Type}

/-! ## What each operation can raise (R231) -/

/-- A range test raises ContractViolation alone, on a width above 64 (R95, R96). -/
theorem checkWidth_bind_pure_error_iff {α : Type} {width : Nat} {x : α} {e : Exn} :
    (checkWidth width >>= fun _ => pure x) = .error e ↔ 64 < width ∧ e = .contractViolation := by
  rcases Nat.lt_or_ge 64 width with h | h
  · simp [checkWidth_error h, h, bind, Except.bind, eq_comm]
  · simp [checkWidth_ok h, Nat.not_lt.mpr h, bind, Except.bind, pure, Except.pure]

/-- An operation that checks its descriptor first, and raises nothing after it, raises ContractViolation alone. -/
theorem error_iff_of_desc {x : Except Exn Word} {y : Word} {width lsb : Nat} {e : Exn}
    (illegal : 64 < width + lsb → x = .error .contractViolation) (legal : width + lsb ≤ 64 → x = .ok y) :
    x = .error e ↔ 64 < width + lsb ∧ e = .contractViolation := by
  rcases Nat.lt_or_ge 64 (width + lsb) with h | h
  · simp [illegal h, h, eq_comm]
  · simp [legal h, Nat.not_lt.mpr h]

theorem getUnsigned_error_iff {word : Word} {width lsb : Nat} {e : Exn} :
    getUnsigned word width lsb = .error e ↔ 64 < width + lsb ∧ e = .contractViolation :=
  error_iff_of_desc (getUnsigned_error word) (getUnsigned_ok word)

theorem getSigned_error_iff {word : Word} {width lsb : Nat} {e : Exn} :
    getSigned word width lsb = .error e ↔ 64 < width + lsb ∧ e = .contractViolation :=
  error_iff_of_desc (getSigned_error word) (getSigned_ok word)

/-- What an unsigned insert raises: ContractViolation first, then Overflow (R119, R120). -/
theorem setUnsigned_error_iff {word value : Word} {width lsb : Nat} {e : Exn} :
    setUnsigned word width lsb value = .error e ↔
      (64 < width + lsb ∧ e = .contractViolation) ∨ (width + lsb ≤ 64 ∧ 2 ^ width ≤ value.toNat ∧ e = .overflow) := by
  rcases Nat.lt_or_ge 64 (width + lsb) with hd | hd
  · simp [setUnsigned_error word value hd, hd, Nat.not_le.mpr hd, eq_comm]
  · obtain ⟨hv, h⟩ | ⟨hv, h⟩ := setUnsigned_cases word value hd
    · simp [h, Nat.not_lt.mpr hd, Nat.not_le.mpr hv]
    · simp [h, hd, Nat.not_lt.mpr hd, hv, eq_comm]

/-- What a signed insert raises (R119, R122). -/
theorem setSigned_error_iff {word value : Word} {width lsb : Nat} {e : Exn} :
    setSigned word width lsb value = .error e ↔
      (64 < width + lsb ∧ e = .contractViolation) ∨
        (width + lsb ≤ 64 ∧ ¬ inSignedRange value.toInt width ∧ e = .overflow) := by
  rcases Nat.lt_or_ge 64 (width + lsb) with hd | hd
  · simp [setSigned_error word value hd, hd, Nat.not_le.mpr hd, eq_comm]
  · obtain ⟨hv, h⟩ | ⟨hv, h⟩ := setSigned_cases word value hd <;> rw [fitsSigned_eq] at hv
    · simp [h, Nat.not_lt.mpr hd, of_decide_eq_true hv]
    · simp [h, hd, Nat.not_lt.mpr hd, of_decide_eq_false hv, eq_comm]

/-- PACK raises Overflow alone, on a record that does not fit (R142). -/
theorem pack_error_iff {r : Record} {e : Exn} : pack r = .error e ↔ ¬ recordFits r ∧ e = .overflow := by
  obtain ⟨hr, h⟩ | ⟨hr, h⟩ := pack_cases r
  · simp [h, hr]
  · simp [h, hr, eq_comm]

/-- CBLK raises what its PACK raises (R215). -/
theorem opCblk_error_iff {p : Params R} {b : Block R} {e : Exn} :
    opCblk p b = .error e ↔ ¬ recordFits (bfwd p (mapBlock (rgbToYcc p.num) b)) ∧ e = .overflow := by
  have composed : opCblk p b =
      (pack (bfwd p (mapBlock (rgbToYcc p.num) b))).map fun cw => .bytes (serialize cw) := by
    simp only [opCblk, cblk]
    cases pack _ <;> rfl
  rw [composed, map_eq_error_iff, pack_error_iff]

/-- DESER raises IncompleteWord alone, on fewer than four bytes (R145). -/
theorem opDeser_error_iff {b : StreamBytes} {n : Nat} {e : Exn} :
    opDeser (R := R) b n = .error e ↔ n < 4 ∧ e = .incompleteWord := by
  rcases Nat.lt_or_ge n 4 with h | h
  · simp [opDeser_incomplete b h, h, eq_comm]
  · simp [opDeser_ok b h, Nat.not_lt.mpr h]

/-- DBLK raises what its DESER raises (R216). -/
theorem opDblk_error_iff {p : Params R} {b : StreamBytes} {n : Nat} {e : Exn} :
    opDblk p b n = .error e ↔ n < 4 ∧ e = .incompleteWord := by
  rcases Nat.lt_or_ge n 4 with h | h
  · simp [opDblk_incomplete p b h, h, eq_comm]
  · simp [opDblk_ok p b h, Nat.not_lt.mpr h]

/-! ## The rows of R231, instruction by instruction -/

/-- Under `NUM_EXACT` and for any chroma lookup, the AC coefficients BFWD answers always fit their fields (R189). -/
theorem recordFits_bfwd_iff {p : Params Rat} (hnum : p.num = Num.exact) (b : Block Rat) :
    recordFits (bfwd p b) ↔ (bfwd p b).a.toNat ≤ 63 ∧ (bfwd p b).pbAvg.toNat ≤ 15 ∧ (bfwd p b).prAvg.toNat ≤ 15 := by
  have acFits (x : Rat) : -32 ≤ (quantAc p.num x).toInt ∧ (quantAc p.num x).toInt ≤ 31 := by
    obtain ⟨hlo, hhi⟩ := toInt_quantizedAc_bounds x
    rw [hnum, quantAc_eq_quantizedAc]
    omega
  exact ⟨fun ⟨ha, _, _, _, hpb, hpr⟩ => ⟨ha, hpb, hpr⟩,
    fun ⟨ha, hpb, hpr⟩ => ⟨ha, acFits _, acFits _, acFits _, hpb, hpr⟩⟩

/-- The condition of SETS' Overflow row: the range is empty at width 0. -/
theorem not_inSignedRange_iff (v : Int) (width : Nat) :
    ¬ inSignedRange v width ↔ width = 0 ∨ v < -(2 : Int) ^ (width - 1) ∨ v > (2 : Int) ^ (width - 1) - 1 := by
  unfold inSignedRange
  omega

/-- The condition of PACK's Overflow row, field by field. -/
theorem not_recordFits_iff (p : Params Rat) (r : Record) : ¬ recordFits r ↔ overflows p (.pack r) := by
  simp only [overflows]
  omega

/-- The condition of CBLK's Overflow row. -/
theorem not_recordFits_bfwd_iff {p : Params Rat} (hnum : p.num = Num.exact) (b : Block Rat) :
    ¬ recordFits (bfwd p (mapBlock (rgbToYcc p.num) b)) ↔ overflows p (.cblk b) := by
  simp only [recordFits_bfwd_iff hnum, overflows]
  omega

/-- The table of R231: what an instruction raises, and on which condition. -/
theorem perform_error_iff {p : Params Rat} (hnum : p.num = Num.exact) (i : Instr) (e : Exn) :
    perform p i = .error e ↔
      (violates i = true ∧ e = .contractViolation) ∨ (overflows p i ∧ e = .overflow) ∨
        (incomplete i ∧ e = .incompleteWord) := by
  cases i with
  | fitsu | fitss =>
    rw [perform]
    exact checkWidth_bind_pure_error_iff.trans (by simp [violates, overflows, incomplete])
  | getu | gets =>
    simp [perform, opGetu, opGets, map_eq_error_iff, getUnsigned_error_iff, getSigned_error_iff,
      legalDescriptor_eq_false_iff, violates, overflows, incomplete]
  | setu =>
    simp [perform, opSetu, map_eq_error_iff, setUnsigned_error_iff, legalDescriptor_eq_false_iff, violates, overflows,
      incomplete, and_assoc]
  | sets =>
    simp [perform, opSets, map_eq_error_iff, setSigned_error_iff, not_inSignedRange_iff, legalDescriptor_eq_false_iff,
      violates, overflows, incomplete, and_assoc, -not_and]
  | pack r =>
    rw [perform, opPack, map_eq_error_iff, pack_error_iff, not_recordFits_iff p]
    simp [violates, incomplete]
  | cblk b =>
    rw [perform, opCblk_error_iff, not_recordFits_bfwd_iff hnum]
    simp [violates, incomplete]
  | unpack | deser | dblk =>
    simp [perform, opUnpack_ok, opDeser_error_iff, opDblk_error_iff, violates, overflows, incomplete]
  | ser | rgb2ycc | ycc2rgb | bfwd | binv =>
    exact iff_of_false nofun (by simp [violates, overflows, incomplete])

/-! ## From the exception to the answer (R236) -/

/-- A command's pseudocode raises what its instruction's does; a reserved opcode raises ContractViolation (R64). -/
theorem commandOutcome_error_iff (p : Params Rat) (c : Command Rat) (e : Exn) :
    commandOutcome p c = .error e ↔
      (Opcode.ofBits? c.op = none ∧ e = .contractViolation) ∨ ∃ i, decode c = .ok i ∧ perform p i = .error e := by
  cases h : Opcode.ofBits? c.op with
  | none => simp [commandOutcome_reserved p h, decode, h, eq_comm]
  | some o => simp [commandOutcome_of_opcode p h, decode_of_ofBits h, runRule_eq_perform]

/-- From `FATAL = 0` the status of an exception is answered exactly when that exception is raised. -/
theorem coreStep_response_eq_iff (p : Params R) (c : Command R) (e : Exn) :
    (coreStep p ⟨false⟩ c).2 = e.response ↔ commandOutcome p c = .error e := by
  cases h : commandOutcome p c with
  | ok r => cases e <;> simp [coreStep_of_ok rfl h, Exn.response]
  | error e' => cases e <;> cases e' <;> simp [coreStep_of_error rfl h, Exn.response]

/-! ## The FATAL gate (R236) -/

theorem exec_of_fatal {s : State} (hs : s.arch.fatal = true) (i : Instr) : exec i s = .next (answered s .fatal) := by
  rw [exec_eq_complete, complete_fatal hs]
  rfl

theorem accept_of_fatal {s : State} (hs : s.arch.fatal = true) (c : Command Rat) :
    accept c s = .next (answered s .fatal) := by
  rw [accept_eq, complete_fatal hs]
  rfl

end Sys2Proof.Machine

namespace Sys2Proof.Proofs

open Sys2Proof.Machine Sys2Proof.Safety Sys2Proof.Claims

/-- Settles O36: the status answered is that of the exception raised, and the rows of R231 say which instructions raise it. -/
theorem exceptionsHaveExactlyTheirCauses : Obligations.ExceptionsHaveExactlyTheirCauses := by
  intro p c hnum
  have answer (e : Exn) := (coreStep_response_eq_iff p c e).trans (commandOutcome_error_iff p c e)
  refine ⟨?_, ?_, ?_⟩
  · exact (answer .contractViolation).trans (by simp [perform_error_iff hnum])
  · exact (answer .overflow).trans (by simp [perform_error_iff hnum])
  · exact (answer .incompleteWord).trans (by simp [perform_error_iff hnum])

/-- Settles O37: the state after each exception is written out. -/
theorem eachExceptionHasItsResponseAndEffect : Obligations.EachExceptionHasItsResponseAndEffect := by
  intro i e s hs h
  rw [exec_of_error hs h]
  cases e <;> rfl

/-- Settles O38, by the outcome of the pseudocode: a result, or one of the three exceptions. -/
theorem commandsCompleteWhollyOrNotAtAll : Obligations.CommandsCompleteWhollyOrNotAtAll := by
  intro R p c
  cases h : commandOutcome p c with
  | ok r => exact .inl ⟨r, coreStep_of_ok rfl h⟩
  | error e =>
    have step := coreStep_of_error (a := ⟨false⟩) rfl h
    cases e with
    | overflow => exact .inr (.inl step)
    | incompleteWord => exact .inr (.inr (.inl step))
    | contractViolation => exact .inr (.inr (.inr step))

/-- Settles O39: an illegal descriptor is a ContractViolation whatever the value, and the gate answers before the opcode is
looked at. -/
theorem contractViolationComesBeforeOverflow : Obligations.ContractViolationComesBeforeOverflow := by
  refine ⟨fun word value width lsb s hs hd => ?_, fun c s hs _ => accept_of_fatal hs c⟩
  have illegal : (!legalDescriptor width lsb) = true := congrArg (!·) (legalDescriptor_eq_false_iff.mpr hd)
  exact ⟨fun _ => exec_of_violates hs illegal, fun _ => exec_of_violates hs illegal⟩

/-- Settles O41: the gate comes before the pseudocode of an instruction and before the opcode of a command. -/
theorem fatalGateAnswersEveryCommand : Obligations.FatalGateAnswersEveryCommand := by
  refine ⟨fun i s hs => exec_of_fatal hs i, fun c rest s hs he => ?_⟩
  rw [step_command he, accept_of_fatal (s := { s with events := rest }) hs]

/-- Settles O46: decoding before the gate or after it completes the same outcome. -/
theorem machineStepRefinesTheSpecifiedStep : Obligations.MachineStepRefinesTheSpecifiedStep :=
  fun _ _ _ he => step_command_eq_coreStep he

end Sys2Proof.Proofs
end
